-- ==== Sys2Proof/Word.lean ====
section
/-! DEFINITION. The word types of the core (00_scope.md R4, 10_state.md section 1). -/

namespace Sys2Proof

/-- An 8-bit value: a general register, a timer, a byte of memory, the immediate `kk`. -/
abbrev Byte := BitVec 8

/-- A 16-bit value: `pc`, `I`, a stack slot, an opcode. -/
abbrev Word := BitVec 16

/-- The 12-bit address field `nnn` of an opcode (30_encoding.md R63). -/
abbrev Addr12 := BitVec 12

/-- The number of a general register, V0 to VF (10_state.md R10). -/
abbrev Reg := Fin 16

/-- The code of a key, 0 to F (10_state.md R18). -/
abbrev KeyCode := Fin 16

end Sys2Proof
end

