-- ==== Sys2Proof/Syntax.lean ====
section
/-! DEFINITION. The 34 instructions: one constructor per row of spec/opcode_table.json, in its order
(30_encoding.md R67). -/

namespace Sys2Proof

/-- An instruction. Register numbers, `kk` and `nnn` carry the widths of their fields in their types
(R63, R65); the row count `n` of `draw` is a natural number, and `Instr.wellFormed` says it is at most 15.
`shr` and `shl` have no `y`: the field is ignored (R64, R128, R130; log entry 7). -/
inductive Instr where
  /-- `00E0`, R160. -/
  | clearScreen
  /-- `00EE`, R100. -/
  | ret
  /-- `1nnn`, R101. -/
  | jump (nnn : Addr12)
  /-- `2nnn`, R102. -/
  | call (nnn : Addr12)
  /-- `3xkk`, R103. -/
  | skipEqImm (x : Reg) (kk : Byte)
  /-- `4xkk`, R104. -/
  | skipNeImm (x : Reg) (kk : Byte)
  /-- `5xy0`, R105. -/
  | skipEqReg (x y : Reg)
  /-- `9xy0`, R106. -/
  | skipNeReg (x y : Reg)
  /-- `6xkk`, R120. -/
  | setImm (x : Reg) (kk : Byte)
  /-- `7xkk`, R121. -/
  | addImm (x : Reg) (kk : Byte)
  /-- `8xy0`, R122. -/
  | setReg (x y : Reg)
  /-- `8xy1`, R123. -/
  | orReg (x y : Reg)
  /-- `8xy2`, R124. -/
  | andReg (x y : Reg)
  /-- `8xy3`, R125. -/
  | xorReg (x y : Reg)
  /-- `8xy4`, R126. -/
  | addReg (x y : Reg)
  /-- `8xy5`, R127. -/
  | sub (x y : Reg)
  /-- `8xy6`, R128. -/
  | shr (x : Reg)
  /-- `8xy7`, R129. -/
  | subn (x y : Reg)
  /-- `8xyE`, R130. -/
  | shl (x : Reg)
  /-- `Annn`, R140. -/
  | setI (nnn : Addr12)
  /-- `Bnnn`, R107. -/
  | jumpV0 (nnn : Addr12)
  /-- `Cxkk`, R131. -/
  | random (x : Reg) (kk : Byte)
  /-- `Dxyn`, R161. -/
  | draw (x y : Reg) (n : Nat)
  /-- `Ex9E`, R170. -/
  | skipKeyPressed (x : Reg)
  /-- `ExA1`, R171. -/
  | skipKeyNotPressed (x : Reg)
  /-- `Fx07`, R172. -/
  | getDelay (x : Reg)
  /-- `Fx0A`, R173. -/
  | waitKey (x : Reg)
  /-- `Fx15`, R174. -/
  | setDelay (x : Reg)
  /-- `Fx18`, R175. -/
  | setSound (x : Reg)
  /-- `Fx1E`, R141. -/
  | addI (x : Reg)
  /-- `Fx29`, R142. -/
  | fontAddr (x : Reg)
  /-- `Fx33`, R143. -/
  | bcd (x : Reg)
  /-- `Fx55`, R144. -/
  | storeRegs (x : Reg)
  /-- `Fx65`, R145. -/
  | loadRegs (x : Reg)
  deriving DecidableEq, Repr

end Sys2Proof
end

