-- ==== Sys2Proof/WellFormed.lean ====
section
/-! DEFINITION. Which instructions have an encoding: the checks the types of the operands do not make. -/

namespace Sys2Proof

/-- The row count of `draw` is a 4-bit count (30_encoding.md R63, R65); the types of all other
operands are as wide as their fields, and every value of those fields is legal (R65). -/
def Instr.wellFormed : Instr → Bool
  | .draw _ _ n => decide (n < 16)
  | .clearScreen | .ret | .jump _ | .call _ | .skipEqImm _ _ | .skipNeImm _ _ | .skipEqReg _ _
  | .skipNeReg _ _ | .setImm _ _ | .addImm _ _ | .setReg _ _ | .orReg _ _ | .andReg _ _
  | .xorReg _ _ | .addReg _ _ | .sub _ _ | .shr _ | .subn _ _ | .shl _ | .setI _ | .jumpV0 _
  | .random _ _ | .skipKeyPressed _ | .skipKeyNotPressed _ | .getDelay _ | .waitKey _
  | .setDelay _ | .setSound _ | .addI _ | .fontAddr _ | .bcd _ | .storeRegs _ | .loadRegs _ => true

end Sys2Proof
end

