-- ==== Sys2Proof/Decode.lean ====
section
/-! DEFINITION. From opcode words to instructions and back (30_encoding.md). -/

namespace Sys2Proof

/-! ### The opcode map (R67) -/

/-- One row of the opcode map: a word `op` is this row's exactly when `op &&& mask = bits` (R66). -/
structure OpRow where
  /-- The row's name in spec/opcode_table.json. -/
  mnemonic : String
  /-- The column "match". -/
  bits : Word
  /-- The column "mask". -/
  mask : Word
  deriving DecidableEq, Repr

/-- The row of the opcode map an instruction belongs to (R67). The patterns of 29 of the 34 rows are
the spec's general knowledge: PRESUMED, log entry 15. -/
def rowOf : Instr → OpRow
  | .clearScreen => ⟨"clear-screen", 0x00E0, 0xFFFF⟩
  | .ret => ⟨"return", 0x00EE, 0xFFFF⟩
  | .jump _ => ⟨"jump", 0x1000, 0xF000⟩
  | .call _ => ⟨"call", 0x2000, 0xF000⟩
  | .skipEqImm _ _ => ⟨"skip-eq-imm", 0x3000, 0xF000⟩
  | .skipNeImm _ _ => ⟨"skip-ne-imm", 0x4000, 0xF000⟩
  | .skipEqReg _ _ => ⟨"skip-eq-reg", 0x5000, 0xF00F⟩
  | .skipNeReg _ _ => ⟨"skip-ne-reg", 0x9000, 0xF00F⟩
  | .setImm _ _ => ⟨"set-imm", 0x6000, 0xF000⟩
  | .addImm _ _ => ⟨"add-imm", 0x7000, 0xF000⟩
  | .setReg _ _ => ⟨"set-reg", 0x8000, 0xF00F⟩
  | .orReg _ _ => ⟨"or", 0x8001, 0xF00F⟩
  | .andReg _ _ => ⟨"and", 0x8002, 0xF00F⟩
  | .xorReg _ _ => ⟨"xor", 0x8003, 0xF00F⟩
  | .addReg _ _ => ⟨"add-reg", 0x8004, 0xF00F⟩
  | .sub _ _ => ⟨"sub", 0x8005, 0xF00F⟩
  | .shr _ => ⟨"shr", 0x8006, 0xF00F⟩
  | .subn _ _ => ⟨"subn", 0x8007, 0xF00F⟩
  | .shl _ => ⟨"shl", 0x800E, 0xF00F⟩
  | .setI _ => ⟨"set-I", 0xA000, 0xF000⟩
  | .jumpV0 _ => ⟨"jump-v0", 0xB000, 0xF000⟩
  | .random _ _ => ⟨"random", 0xC000, 0xF000⟩
  | .draw _ _ _ => ⟨"draw", 0xD000, 0xF000⟩
  | .skipKeyPressed _ => ⟨"skip-key-pressed", 0xE09E, 0xF0FF⟩
  | .skipKeyNotPressed _ => ⟨"skip-key-not-pressed", 0xE0A1, 0xF0FF⟩
  | .getDelay _ => ⟨"get-delay", 0xF007, 0xF0FF⟩
  | .waitKey _ => ⟨"wait-key", 0xF00A, 0xF0FF⟩
  | .setDelay _ => ⟨"set-delay", 0xF015, 0xF0FF⟩
  | .setSound _ => ⟨"set-sound", 0xF018, 0xF0FF⟩
  | .addI _ => ⟨"add-I", 0xF01E, 0xF0FF⟩
  | .fontAddr _ => ⟨"font-addr", 0xF029, 0xF0FF⟩
  | .bcd _ => ⟨"bcd", 0xF033, 0xF0FF⟩
  | .storeRegs _ => ⟨"store-regs", 0xF055, 0xF0FF⟩
  | .loadRegs _ => ⟨"load-regs", 0xF065, 0xF0FF⟩

/-- The 34 rows of the opcode map, in the spec's order (R67). -/
def opcodeMap : List OpRow :=
  [rowOf .clearScreen, rowOf .ret, rowOf (.jump 0), rowOf (.call 0), rowOf (.skipEqImm 0 0),
   rowOf (.skipNeImm 0 0), rowOf (.skipEqReg 0 0), rowOf (.skipNeReg 0 0), rowOf (.setImm 0 0),
   rowOf (.addImm 0 0), rowOf (.setReg 0 0), rowOf (.orReg 0 0), rowOf (.andReg 0 0)]
  ++ [rowOf (.xorReg 0 0), rowOf (.addReg 0 0), rowOf (.sub 0 0), rowOf (.shr 0), rowOf (.subn 0 0),
   rowOf (.shl 0), rowOf (.setI 0), rowOf (.jumpV0 0), rowOf (.random 0 0), rowOf (.draw 0 0 0)]
  ++ [rowOf (.skipKeyPressed 0), rowOf (.skipKeyNotPressed 0), rowOf (.getDelay 0),
   rowOf (.waitKey 0), rowOf (.setDelay 0), rowOf (.setSound 0), rowOf (.addI 0),
   rowOf (.fontAddr 0), rowOf (.bcd 0), rowOf (.storeRegs 0), rowOf (.loadRegs 0)]

/-- Whether `op` is one of the row's words (R66). -/
def OpRow.matches (r : OpRow) (op : Word) : Bool := op &&& r.mask == r.bits

/-! ### The fields of an opcode (R63) -/

/-- `fam = op[15:12]`. -/
def fieldFam (op : Word) : Nat := (op.extractLsb' 12 4).toNat

/-- `x = op[11:8]`. -/
def fieldX (op : Word) : Reg := (op.extractLsb' 8 4).toFin

/-- `y = op[7:4]`. -/
def fieldY (op : Word) : Reg := (op.extractLsb' 4 4).toFin

/-- `n = op[3:0]`. -/
def fieldN (op : Word) : Nat := (op.extractLsb' 0 4).toNat

/-- `kk = op[7:0]`. -/
def fieldKK (op : Word) : Byte := op.extractLsb' 0 8

/-- `nnn = op[11:0]`. -/
def fieldNNN (op : Word) : Addr12 := op.extractLsb' 0 12

/-! ### Decode (R66, R67, R68) -/

/-- Family 0: only the two fixed words (R68, decision D2; log entry 16). -/
def decodeFamily0 (op : Word) : Option Instr :=
  if op = 0x00E0 then some .clearScreen
  else if op = 0x00EE then some .ret
  else none

/-- Family 8: the sub-opcode is `n`; `y` is ignored by `shr` and `shl` (R64). -/
def decodeFamily8 (op : Word) : Option Instr :=
  match fieldN op with
  | 0x0 => some (.setReg (fieldX op) (fieldY op))
  | 0x1 => some (.orReg (fieldX op) (fieldY op))
  | 0x2 => some (.andReg (fieldX op) (fieldY op))
  | 0x3 => some (.xorReg (fieldX op) (fieldY op))
  | 0x4 => some (.addReg (fieldX op) (fieldY op))
  | 0x5 => some (.sub (fieldX op) (fieldY op))
  | 0x6 => some (.shr (fieldX op))
  | 0x7 => some (.subn (fieldX op) (fieldY op))
  | 0xE => some (.shl (fieldX op))
  | _ => none

/-- Family E: the sub-opcode is the whole low byte (R67). -/
def decodeFamilyE (op : Word) : Option Instr :=
  match (fieldKK op).toNat with
  | 0x9E => some (.skipKeyPressed (fieldX op))
  | 0xA1 => some (.skipKeyNotPressed (fieldX op))
  | _ => none

/-- Family F: the sub-opcode is the whole low byte (R67). -/
def decodeFamilyF (op : Word) : Option Instr :=
  match (fieldKK op).toNat with
  | 0x07 => some (.getDelay (fieldX op))
  | 0x0A => some (.waitKey (fieldX op))
  | 0x15 => some (.setDelay (fieldX op))
  | 0x18 => some (.setSound (fieldX op))
  | 0x1E => some (.addI (fieldX op))
  | 0x29 => some (.fontAddr (fieldX op))
  | 0x33 => some (.bcd (fieldX op))
  | 0x55 => some (.storeRegs (fieldX op))
  | 0x65 => some (.loadRegs (fieldX op))
  | _ => none

/-- Decode one opcode, by family (the procedure under R67): an instruction, or none where the word is
unknown (R68). Strict: every fixed bit is compared (decision D3; log entry 16). -/
def decodeWord (op : Word) : Option Instr :=
  match fieldFam op with
  | 0x0 => decodeFamily0 op
  | 0x1 => some (.jump (fieldNNN op))
  | 0x2 => some (.call (fieldNNN op))
  | 0x3 => some (.skipEqImm (fieldX op) (fieldKK op))
  | 0x4 => some (.skipNeImm (fieldX op) (fieldKK op))
  | 0x5 => if fieldN op = 0 then some (.skipEqReg (fieldX op) (fieldY op)) else none
  | 0x6 => some (.setImm (fieldX op) (fieldKK op))
  | 0x7 => some (.addImm (fieldX op) (fieldKK op))
  | 0x8 => decodeFamily8 op
  | 0x9 => if fieldN op = 0 then some (.skipNeReg (fieldX op) (fieldY op)) else none
  | 0xA => some (.setI (fieldNNN op))
  | 0xB => some (.jumpV0 (fieldNNN op))
  | 0xC => some (.random (fieldX op) (fieldKK op))
  | 0xD => some (.draw (fieldX op) (fieldY op) (fieldN op))
  | 0xE => decodeFamilyE op
  | 0xF => decodeFamilyF op
  | _ => none

/-- Why bytes are no instruction. -/
inductive DecodeError where
  /-- The word matches no row of the opcode map: the core raises `UnknownOpcode` (R68, R201). Safe. -/
  | unknownOpcode (op : Word)
  /-- Fewer than two bytes are left: no instruction is shorter than a word (R62). Only callers that hand
  over a list meet it; the core's fetch always reads two bytes. Safe. -/
  | truncated
  deriving DecidableEq, Repr

/-- The big-endian word of two bytes: the byte at the lower address is the high one (20_memory.md R44). -/
def wordOfBytes (hi lo : Byte) : Word := hi ++ lo

/-- Decode the instruction at the head of a list of bytes, and the bytes after it. Every instruction
is two bytes long (R62). -/
def decode : List Byte → Except DecodeError (Instr × List Byte)
  | hi :: lo :: rest =>
    match decodeWord (wordOfBytes hi lo) with
    | some i => .ok (i, rest)
    | none => .error (.unknownOpcode (wordOfBytes hi lo))
  | _ => .error .truncated

/-! ### Encode (R64, R67) -/

/-- A register number as the four bits of an opcode field. -/
def regBits (x : Reg) : BitVec 4 := BitVec.ofFin x

/-- The word of a well-formed instruction, written from the column "pattern" of R67. For `shr` and
`shl` the ignored field `y` is written as 0 (DESIGN CHOICE, log entry 7). -/
def encode : Instr → Word
  | .clearScreen => 0x00E0
  | .ret => 0x00EE
  | .jump nnn => 0x1#4 ++ nnn
  | .call nnn => 0x2#4 ++ nnn
  | .skipEqImm x kk => 0x3#4 ++ regBits x ++ kk
  | .skipNeImm x kk => 0x4#4 ++ regBits x ++ kk
  | .skipEqReg x y => 0x5#4 ++ regBits x ++ regBits y ++ 0x0#4
  | .skipNeReg x y => 0x9#4 ++ regBits x ++ regBits y ++ 0x0#4
  | .setImm x kk => 0x6#4 ++ regBits x ++ kk
  | .addImm x kk => 0x7#4 ++ regBits x ++ kk
  | .setReg x y => 0x8#4 ++ regBits x ++ regBits y ++ 0x0#4
  | .orReg x y => 0x8#4 ++ regBits x ++ regBits y ++ 0x1#4
  | .andReg x y => 0x8#4 ++ regBits x ++ regBits y ++ 0x2#4
  | .xorReg x y => 0x8#4 ++ regBits x ++ regBits y ++ 0x3#4
  | .addReg x y => 0x8#4 ++ regBits x ++ regBits y ++ 0x4#4
  | .sub x y => 0x8#4 ++ regBits x ++ regBits y ++ 0x5#4
  | .shr x => 0x8#4 ++ regBits x ++ regBits 0 ++ 0x6#4
  | .subn x y => 0x8#4 ++ regBits x ++ regBits y ++ 0x7#4
  | .shl x => 0x8#4 ++ regBits x ++ regBits 0 ++ 0xE#4
  | .setI nnn => 0xA#4 ++ nnn
  | .jumpV0 nnn => 0xB#4 ++ nnn
  | .random x kk => 0xC#4 ++ regBits x ++ kk
  | .draw x y n => 0xD#4 ++ regBits x ++ regBits y ++ BitVec.ofNat 4 n
  | .skipKeyPressed x => 0xE#4 ++ regBits x ++ 0x9E#8
  | .skipKeyNotPressed x => 0xE#4 ++ regBits x ++ 0xA1#8
  | .getDelay x => 0xF#4 ++ regBits x ++ 0x07#8
  | .waitKey x => 0xF#4 ++ regBits x ++ 0x0A#8
  | .setDelay x => 0xF#4 ++ regBits x ++ 0x15#8
  | .setSound x => 0xF#4 ++ regBits x ++ 0x18#8
  | .addI x => 0xF#4 ++ regBits x ++ 0x1E#8
  | .fontAddr x => 0xF#4 ++ regBits x ++ 0x29#8
  | .bcd x => 0xF#4 ++ regBits x ++ 0x33#8
  | .storeRegs x => 0xF#4 ++ regBits x ++ 0x55#8
  | .loadRegs x => 0xF#4 ++ regBits x ++ 0x65#8

/-- The high byte of a word: the byte at the lower address (R44). -/
def highByte (w : Word) : Byte := w.extractLsb' 8 8

/-- The low byte of a word: the byte at the higher address (R44). -/
def lowByte (w : Word) : Byte := w.extractLsb' 0 8

/-- An instruction's two bytes as they lie in memory (R44, R72). -/
def encodeBytes (i : Instr) : List Byte := [highByte (encode i), lowByte (encode i)]

/-! ### The host's view of the decoder -/

/-- The opcode of a table row whose bits are `w`: every row of spec/opcode_table.json is one 16-bit word,
numbered as the table numbers it, and bits from `nbits` on are 0. -/
def tableWord (nbits w : Nat) : Word := BitVec.ofNat 16 (w % 2 ^ nbits)

/-- What the decoder reads from an instruction whose bits are `w`, laid out in memory high byte first. -/
def decodeTableWord (nbits w : Nat) : Option Instr :=
  match decode [highByte (tableWord nbits w), lowByte (tableWord nbits w)] with
  | .ok (i, _) => some i
  | .error _ => none

end Sys2Proof
end

