-- ==== Sys2Proof/Config.lean ====
section
/-! DEFINITION. Sizes that R4 fixes (the others stand in the types of the state), the default of the parameter
FONT and the free random byte. -/

namespace Sys2Proof

/-- `MEM_SIZE` (00_scope.md R4): main memory is the addresses 0x000 to 0xFFF. -/
def Config.memSize : Nat := 4096

/-- `PROG_BASE` (R4): where a program is loaded, and the `pc` after reset. -/
def Config.progBase : Nat := 0x200

/-- `MAX_IMAGE` (R4): the longest program image, in bytes. -/
def Config.maxImage : Nat := 3584

/-- The DEFAULT of the open parameter `FONT` (00_scope.md R5, decision D20): the conventional font,
93_implementation_defined.md G2, glyph 0 to glyph F, five bytes each.
DESIGN CHOICE, log entry 3: only the value of `State.reset.font`; no statement rests on it. -/
def Config.conventionalFont : Vector Byte 80 := #v[
  0xF0, 0x90, 0x90, 0x90, 0xF0,  0x20, 0x60, 0x20, 0x20, 0x70,
  0xF0, 0x10, 0xF0, 0x80, 0xF0,  0xF0, 0x10, 0xF0, 0x10, 0xF0,
  0x90, 0x90, 0xF0, 0x10, 0x10,  0xF0, 0x80, 0xF0, 0x10, 0xF0,
  0xF0, 0x80, 0xF0, 0x90, 0xF0,  0xF0, 0x10, 0x20, 0x40, 0x40,
  0xF0, 0x90, 0xF0, 0x90, 0xF0,  0xF0, 0x90, 0xF0, 0x10, 0xF0,
  0xF0, 0x90, 0xF0, 0x90, 0x90,  0xE0, 0x90, 0xE0, 0x90, 0xE0,
  0xF0, 0x80, 0x80, 0x80, 0xF0,  0xE0, 0x90, 0x90, 0x90, 0xE0,
  0xF0, 0x80, 0xF0, 0x80, 0xF0,  0xF0, 0x80, 0xF0, 0x80, 0x80]

/-- The random bytes the host supplies (60_exceptions.md R218, decision D21): a FREE VALUE, one for
every draw, under no law. It has no body, so a proof about `random` holds for every byte. Log entry 2. -/
opaque Config.randByte : Nat → Byte

end Sys2Proof
end

