-- ==== Sys2Proof/Machine/State.lean ====
section
/-! DEFINITION. The state of the core (10_state.md), why a step can fault, and the state after reset. -/

namespace Sys2Proof.Machine

/-- The six faults of the core (60_exceptions.md R200), each with the `info` it records.
A fault of the spec is an effect, not a stop of the model: it is TAKEN as a next state with this value
latched in `State.fault` (R207), and from then on a step changes nothing (R208). So the type serves the
register `FAULT`, and no step of this model answers `Host.Outcome.fault` (log entry 1). -/
inductive Fault where
  /-- Code 1 (R201): decode met a word that is no instruction; `op` is the word. Raised by the step. Safe. -/
  | unknownOpcode (op : Word)
  /-- Code 2 (R202): `call` with all 16 slots in use; `pc` is the call's address. Safe. -/
  | stackOverflow (pc : Word)
  /-- Code 3 (R203): `return` with an empty stack; `pc` is the return's address. Safe. -/
  | stackUnderflow (pc : Word)
  /-- Code 4 (R204): `draw` reaching past the framebuffer; `cell` is the largest cell index of its
  rectangle. Safe: the model faults where another reading would wrap or clip (decision D9). -/
  | outOfBoundsDraw (cell : Nat)
  /-- Code 5 (R205): fetch, `draw`, `bcd`, `store-regs` or `load-regs` past 0xFFF; `addr` is the highest
  address of the access. Safe (decision D7). -/
  | addressOutOfRange (addr : Nat)
  /-- Code 6 (R206): a skip on key with `V[x]` above 15; `key` is `V[x]`. Safe (decision D8). -/
  | keyIndexOutOfRange (key : Byte)
  deriving DecidableEq, Repr

/-- Why the model gives an instruction no meaning. Every instruction of the table has one, so no arm of
`exec` refuses. -/
inductive Refusal where
  /-- Raised by an arm of `exec` for an instruction that has no meaning yet; no arm does. Safe. -/
  | notModelled (mnemonic : String)
  deriving DecidableEq, Repr

/-- The state of the core: the tuple of 10_state.md, and two fields of the MODEL's own (`font`,
`randIndex`) for what the spec leaves to the outside (00_scope.md R5). -/
structure State where
  /-- V0 to VF (R10); VF is `v[15]` (R11). -/
  v : Vector Byte 16
  /-- The index register `I`, all 16 bits (R13). -/
  i : Word
  /-- The program counter: between steps the address of the next instruction (R12). -/
  pc : Word
  /-- The stack depth, 0 to 16 (R14). -/
  sp : Fin 17
  /-- The stack slots; those from `sp` on are stale (R14, decision D29). -/
  stack : Vector Word 16
  /-- The delay timer (R15). -/
  dt : Byte
  /-- The sound timer (R15). -/
  st : Byte
  /-- Main memory (R17, R41): the bytes that differ from what reset leaves, by rising address. An
  address not listed reads as `Memory.resetByte font`. -/
  mem : List Host.Cell
  /-- The framebuffer (R19): its 32 rows, cell `cy*64 + cx` being bit `cx` of row `cy` (log entry 10). -/
  fb : Vector (BitVec 64) 32
  /-- The key flags, as the host left them before this step (R18, R176). -/
  key : Vector Bool 16
  /-- The redraw flag (R16). -/
  draw : Bool
  /-- The fault register: none while the core runs (R21). -/
  fault : Option Fault
  /-- The MODEL's field: the open parameter `FONT` of this core (R5, R20, decision D20; log entry 3).
  No step writes it. -/
  font : Vector Byte 80
  /-- The MODEL's field: how many random bytes have been drawn; `Config.randByte` of it is the next
  (R218, decision D21; log entry 2). -/
  randIndex : Nat
  deriving DecidableEq, Repr

/-- The machine right after `Reset` (R24, R240), with `FONT` at its recommended default. -/
def State.reset : State where
  v := Vector.replicate 16 0
  i := 0
  pc := 0x200
  sp := 0
  stack := Vector.replicate 16 0
  dt := 0
  st := 0
  mem := []
  fb := Vector.replicate 32 0
  key := Vector.replicate 16 false
  draw := false
  fault := none
  font := Config.conventionalFont
  randIndex := 0

end Sys2Proof.Machine
end

