-- ==== Sys2Proof/Machine/Ops.lean ====
section
/-! DEFINITION. The named operations on memory, registers, the stack and the fault register. -/

namespace Sys2Proof.Machine

/-! ### Main memory (20_memory.md) -/

/-- What an address reads as that nothing has written since reset: the font at 0x000 to 0x04F, zero
above it (10_state.md R20, R24, decision D19; log entry 4). -/
def Memory.resetByte (font : Vector Byte 80) (a : Nat) : Byte :=
  if h : a < 80 then font[a] else 0

/-- The byte listed for an address. -/
def Memory.find : List Host.Cell → Nat → Option Byte
  | [], _ => none
  | (a', b') :: rest, a => if a = a' then some b' else Memory.find rest a

/-- One byte of memory. -/
def Memory.read (font : Vector Byte 80) (m : List Host.Cell) (a : Nat) : Byte :=
  (Memory.find m a).getD (Memory.resetByte font a)

/-- List `b` at `a`, where an unlisted `a` reads as `d`: the entry is dropped where `b = d`, so that
equal memories are equal lists. -/
def Memory.put (d : Byte) (a : Nat) (b : Byte) : List Host.Cell → List Host.Cell
  | [] => if b = d then [] else [(a, b)]
  | (a', b') :: rest =>
    if a < a' then (if b = d then (a', b') :: rest else (a, b) :: (a', b') :: rest)
    else if a = a' then (if b = d then rest else (a, b) :: rest)
    else (a', b') :: Memory.put d a b rest

/-- Store one byte. -/
def Memory.write (font : Vector Byte 80) (m : List Host.Cell) (a : Nat) (b : Byte) : List Host.Cell :=
  Memory.put (Memory.resetByte font a) a b m

/-- Every listed address is above `lo`, and they rise strictly. -/
def Memory.risingFrom (lo : Nat) : List Host.Cell → Bool
  | [] => true
  | (a, _) :: rest => decide (lo ≤ a) && Memory.risingFrom (a + 1) rest

/-- The canonical form of memory: addresses rise strictly, each is one of the 4096 (R41), and no entry
equals what its address reads as unlisted. -/
def Memory.wf (font : Vector Byte 80) (m : List Host.Cell) : Bool :=
  Memory.risingFrom 0 m &&
    m.all fun c => decide (c.1 < Config.memSize) && decide (c.2 ≠ Memory.resetByte font c.1)

/-- `MEM[a]`. The callers have checked `a` against 0xFFF (00_scope.md section 5.2). -/
def State.readByte (s : State) (a : Nat) : Byte := Memory.read s.font s.mem a

/-- `MEM[a] <- b`, for an address the caller has checked. -/
def State.writeByte (s : State) (a : Nat) (b : Byte) : State :=
  { s with mem := Memory.write s.font s.mem a b }

/-- Store bytes at consecutive addresses, ascending (R45). -/
def State.writeBytes (s : State) (a : Nat) : List Byte → State
  | [] => s
  | b :: rest => (s.writeByte a b).writeBytes (a + 1) rest

/-! ### Registers -/

/-- `V[x]` (R10). -/
def State.reg (s : State) (x : Reg) : Byte := s.v[x]

/-- `V[x] <- b` (R10). -/
def State.setReg (s : State) (x : Reg) (b : Byte) : State := { s with v := s.v.set x b }

/-- The number of VF (R11). -/
def vf : Reg := 15

/-- `I <- w` (R13). -/
def State.setI (s : State) (w : Word) : State := { s with i := w }

/-- `pc <- w` (R12). -/
def State.setPc (s : State) (w : Word) : State := { s with pc := w }

/-- `pc <- pc + 2`, the advance of an instruction that is no transfer (R12). -/
def State.advance (s : State) : State := { s with pc := s.pc + 2 }

/-- `pc <- pc + 4` where a skip is taken, else `pc + 2` (40_control_flow.md R108). The skipped word is not
looked at (decision D28). -/
def State.skipIf (s : State) (taken : Bool) : State :=
  { s with pc := s.pc + (if taken then 4 else 2) }

/-- `DT <- b` (R15). -/
def State.setDt (s : State) (b : Byte) : State := { s with dt := b }

/-- `ST <- b` (R15). -/
def State.setSt (s : State) (b : Byte) : State := { s with st := b }

/-! ### The call stack (10_state.md R14) -/

/-- Push: the slot at the depth takes the value and the depth grows; none where all 16 are in use. -/
def State.push (s : State) (w : Word) : Option State :=
  if h : s.sp.val < 16 then
    some { s with stack := s.stack.set s.sp.val w, sp := ⟨s.sp.val + 1, by omega⟩ }
  else none

/-- Pop: the depth shrinks and the slot below it is the value; none where the stack is empty. The
vacated slot keeps its value. -/
def State.pop (s : State) : Option (Word × State) :=
  if h : 0 < s.sp.val then
    some (s.stack[s.sp.val - 1]'(by omega), { s with sp := ⟨s.sp.val - 1, by omega⟩ })
  else none

/-! ### The framebuffer (10_state.md R19) -/

/-- Cell `c` of a framebuffer: column `c mod 64` of row `c / 64`. There is no cell from 2048 on. -/
def Framebuffer.get (fb : Vector (BitVec 64) 32) (c : Nat) : Bool :=
  if h : c / 64 < 32 then fb[c / 64].getLsbD (c % 64) else false

/-- `FB[c]`. -/
def State.cell (s : State) (c : Nat) : Bool := Framebuffer.get s.fb c

/-- `FB[c] <- FB[c] ^ 1`. -/
def Framebuffer.toggle (fb : Vector (BitVec 64) 32) (c : Nat) : Vector (BitVec 64) 32 :=
  if h : c / 64 < 32 then fb.set (c / 64) (fb[c / 64] ^^^ BitVec.twoPow 64 (c % 64)) else fb

/-- The framebuffer with every cell 0. -/
def Framebuffer.blank : Vector (BitVec 64) 32 := Vector.replicate 32 0

/-- Write the framebuffer and set the redraw flag, which both display instructions do always (R16,
decision D12). -/
def State.present (s : State) (fb : Vector (BitVec 64) 32) : State := { s with fb := fb, draw := true }

/-! ### The key flags (10_state.md R18) -/

/-- `KEY[k]`. -/
def State.pressed (s : State) (k : KeyCode) : Bool := s.key[k]

/-! ### The random byte (60_exceptions.md R218) -/

/-- `draw8()`: the next random byte, a free value (log entry 2). -/
def State.randomByte (s : State) : Byte := Config.randByte s.randIndex

/-- The random byte has been used: the next draw is another. -/
def State.nextRandom (s : State) : State := { s with randIndex := s.randIndex + 1 }

/-! ### Faults (60_exceptions.md sections 1 and 2) -/

/-- The numeric code of a fault (R200, decision D6). -/
def Fault.code : Fault → Nat
  | .unknownOpcode _ => 1
  | .stackOverflow _ => 2
  | .stackUnderflow _ => 3
  | .outOfBoundsDraw _ => 4
  | .addressOutOfRange _ => 5
  | .keyIndexOutOfRange _ => 6

/-- The `info` a fault records (R200). -/
def Fault.info : Fault → Nat
  | .unknownOpcode op => op.toNat
  | .stackOverflow pc => pc.toNat
  | .stackUnderflow pc => pc.toNat
  | .outOfBoundsDraw cell => cell
  | .addressOutOfRange addr => addr
  | .keyIndexOutOfRange key => key.toNat

/-- TAKING A FAULT (R207): `FAULT` latches it and nothing else changes. There is no return from a fault:
only `Reset` leaves the halted state (R209). -/
def raise (f : Fault) (s : State) : Host.Outcome State Fault Refusal := .next { s with fault := some f }

/-- An access whose highest byte is at `top` raises `AddressOutOfRange(top)` where that is past 0xFFF,
before anything is written; else it goes on (R47). -/
def withAddress (top : Nat) (s : State) (go : Host.Outcome State Fault Refusal) :
    Host.Outcome State Fault Refusal :=
  if 0xFFF < top then raise (.addressOutOfRange top) s else go

/-! ### The timers (60_exceptions.md R213) -/

/-- One decay of a timer: down by one, never below 0. -/
def decay (t : Byte) : Byte := if t = 0 then 0 else t - 1

/-- `TimerDecay()`. -/
def State.timerDecay (s : State) : State := { s with dt := decay s.dt, st := decay s.st }

end Sys2Proof.Machine
end

