-- ==== Sys2Proof/Machine/Operands.lean ====
section
/-! DEFINITION. The operand forms: immediates, register ranges, the one addressing mode, sprites, keys. -/

namespace Sys2Proof.Machine

/-- `zext_16(nnn)` (30_encoding.md R65). -/
def addrWord (nnn : Addr12) : Word := nnn.setWidth 16

/-- `zext_16(V[x])`. -/
def byteWord (b : Byte) : Word := b.setWidth 16

/-- The addressing mode (42_index_memory.md R146): `I + k`, an unbounded integer. -/
abbrev State.indexAddr (s : State) (k : Nat) : Nat := s.i.toNat + k

/-- All register numbers, ascending. -/
def allRegs : List Reg := [0, 1, 2, 3, 4, 5, 6, 7, 8, 9, 10, 11, 12, 13, 14, 15]

/-- The registers V0 to Vx, ascending (10_state.md R10, R144, R145). -/
def regsUpTo (x : Reg) : List Reg := allRegs.filter fun k => decide (k ≤ x)

/-- The values of V0 to Vx, in that order (R144). -/
def State.regBytes (s : State) (x : Reg) : List Byte := (regsUpTo x).map s.reg

/-- `V[k] <- MEM[a + k]` for the registers listed, in order (R145). -/
def State.loadFrom (s : State) (a : Nat) : List Reg → State
  | [] => s
  | k :: rest => (s.setReg k (s.readByte (a + k.val))).loadFrom a rest

/-- The three decimal digits of a byte, hundreds first (R143). -/
def bcdDigits (v : Byte) : List Byte :=
  [BitVec.ofNat 8 (v.toNat / 100), BitVec.ofNat 8 (v.toNat / 10 % 10), BitVec.ofNat 8 (v.toNat % 10)]

/-! ### Sprites (43_display.md R162) -/

/-- The sprite bit at row `r`, column `c`, of the sprite at `I`: bit `7 - c` of its row's byte, so that
bit 7 is the leftmost column (decision D11; PRESUMED, log entry 13). -/
def State.spriteBit (s : State) (r c : Nat) : Bool := (s.readByte (s.indexAddr r)).getLsbD (7 - c)

/-- The framebuffer cell of row `r`, column `c` of a sprite drawn at column `vx`, row `vy`: the linear
index, with no wrap and no clip (20_memory.md R50). -/
abbrev cellIndex (vx vy : Byte) (r c : Nat) : Nat := (vy.toNat + r) * 64 + (vx.toNat + c)

/-- The largest cell index of a sprite of `n` rows (R161, check 2). -/
abbrev lastCell (vx vy : Byte) (n : Nat) : Nat := cellIndex vx vy (n - 1) 7

/-- The cells of one row of the sprite whose bit is 1, left to right. -/
def State.rowCells (s : State) (vx vy : Byte) (r : Nat) : List Nat :=
  ((List.range 8).filter fun c => s.spriteBit r c).map fun c => cellIndex vx vy r c

/-- The cells of the sprite whose bit is 1, row by row: those `draw` toggles. -/
def State.spriteCells (s : State) (vx vy : Byte) (n : Nat) : List Nat :=
  (List.range n).flatMap fun r => s.rowCells vx vy r

/-! ### Keys (44_keys_timers.md) -/

/-- The pressed key of the lowest code, if any is pressed (R173). -/
def State.lowestPressed (s : State) : Option KeyCode := allRegs.find? fun k => s.pressed k

/-- The byte as a key code, where it is one (R170: a code is 0 to 15). -/
def keyCode? (b : Byte) : Option KeyCode := if h : b.toNat < 16 then some ⟨b.toNat, h⟩ else none

end Sys2Proof.Machine
end

