-- ==== Sys2Proof/Machine/Flags.lean ====
section
/-! DEFINITION. Every flag computation: VF is the machine's only flag (10_state.md R11, 41_alu.md R132). -/

namespace Sys2Proof.Machine

/-- A flag as VF holds it: 0 or 1 (R11). -/
def flagByte (b : Bool) : Byte := if b then 1 else 0

/-- The carry of an addition: the true sum exceeds 255 (R126). -/
def carryOut (a b : Byte) : Bool := decide (255 < a.toNat + b.toNat)

/-- No borrow in `a - b`: the minuend is greater than or equal to the subtrahend (R127, R129). -/
def noBorrow (a b : Byte) : Bool := decide (b.toNat ≤ a.toNat)

/-- The bit a right shift by one drops (R128). -/
def lowBit (a : Byte) : Bool := a.getLsbD 0

/-- The bit a left shift by one drops (R130). -/
def highBit (a : Byte) : Bool := a.getLsbD 7

/-- The order of writes of a flag-writing instruction: the result to `V[x]`, then the flag to VF, which
wins where `x = 15` (R133, R245, decision D13; log entry 12). -/
def State.setWithFlag (s : State) (x : Reg) (result : Byte) (flag : Bool) : State :=
  (s.setReg x result).setReg vf (flagByte flag)

/-- The loop of `draw` over the cells whose sprite bit is 1 (R161): the framebuffer with each toggled,
and whether any was set. A sprite bit of 0 changes nothing, so those cells are not visited. -/
def paint (fb : Vector (BitVec 64) 32) (hit : Bool) : List Nat → Vector (BitVec 64) 32 × Bool
  | [] => (fb, hit)
  | c :: rest => paint (Framebuffer.toggle fb c) (hit || Framebuffer.get fb c) rest

end Sys2Proof.Machine
end

