-- ==== Sys2Proof/Machine/Display.lean ====
section
/-! DEFINITION. The display instructions (43_display.md). -/

namespace Sys2Proof.Machine

/-- `clear-screen` (R160): DRAW is set always (decision D12). -/
def execClearScreen (s : State) : Host.Outcome State Fault Refusal := .next (s.present Framebuffer.blank).advance

/-- `draw` past its two checks (R161): the framebuffer, then VF, the redraw flag and the advance. -/
def drawSprite (x y : Reg) (n : Nat) (s : State) : State :=
  let painted := paint s.fb false (s.spriteCells (s.reg x) (s.reg y) n)
  ((s.present painted.1).setReg vf (flagByte painted.2)).advance

/-- `draw Vx,Vy,n` (R161): with rows to draw, first the sprite's last address, then the rectangle's
largest cell is checked; with none (`n = 0`) no fault is possible (decision D32). -/
def execDraw (x y : Reg) (n : Nat) (s : State) : Host.Outcome State Fault Refusal :=
  if n = 0 then .next (drawSprite x y 0 s)
  else
    withAddress (s.indexAddr (n - 1)) s
      (if 2047 < lastCell (s.reg x) (s.reg y) n then
        raise (.outOfBoundsDraw (lastCell (s.reg x) (s.reg y) n)) s
      else .next (drawSprite x y n s))

end Sys2Proof.Machine
end

