-- ==== Sys2Proof/Machine/Index.lean ====
section
/-! DEFINITION. The index-register and memory instructions (42_index_memory.md). -/

namespace Sys2Proof.Machine

/-- `set I,nnn` (R140). -/
def execSetI (nnn : Addr12) (s : State) : Host.Outcome State Fault Refusal :=
  .next (s.setI (addrWord nnn)).advance

/-- `add-I Vx` (R141): modulo 65536 (decision D16), no flag. -/
def execAddI (x : Reg) (s : State) : Host.Outcome State Fault Refusal :=
  .next (s.setI (s.i + byteWord (s.reg x))).advance

/-- `font-addr Vx` (R142): five times the whole `V[x]` (decision D17). -/
def execFontAddr (x : Reg) (s : State) : Host.Outcome State Fault Refusal :=
  .next (s.setI (5 * byteWord (s.reg x))).advance

/-- `bcd Vx` (R143): hundreds at `I`, tens at `I + 1`, ones at `I + 2`. -/
def execBcd (x : Reg) (s : State) : Host.Outcome State Fault Refusal :=
  withAddress (s.indexAddr 2) s (.next (s.writeBytes (s.indexAddr 0) (bcdDigits (s.reg x))).advance)

/-- `store-regs Vx` (R144): V0 to Vx at `I`, ascending; `I` is kept. -/
def execStoreRegs (x : Reg) (s : State) : Host.Outcome State Fault Refusal :=
  withAddress (s.indexAddr x.val) s (.next (s.writeBytes (s.indexAddr 0) (s.regBytes x)).advance)

/-- `load-regs Vx` (R145): V0 to Vx from `I`, ascending; `I` is kept. -/
def execLoadRegs (x : Reg) (s : State) : Host.Outcome State Fault Refusal :=
  withAddress (s.indexAddr x.val) s (.next (s.loadFrom (s.indexAddr 0) (regsUpTo x)).advance)

end Sys2Proof.Machine
end

