-- ==== Sys2Proof/Machine/KeysTimers.lean ====
section
/-! DEFINITION. The key and timer instructions (44_keys_timers.md). -/

namespace Sys2Proof.Machine

/-- A skip on the key that `V[x]` names: `KeyIndexOutOfRange` where it names none (R52, R206). -/
def skipOnKey (x : Reg) (wanted : Bool) (s : State) : Host.Outcome State Fault Refusal :=
  match keyCode? (s.reg x) with
  | some k => .next (s.skipIf (s.pressed k == wanted))
  | none => raise (.keyIndexOutOfRange (s.reg x)) s

/-- `skip-key-pressed Vx` (R170). -/
def execSkipKeyPressed (x : Reg) (s : State) : Host.Outcome State Fault Refusal := skipOnKey x true s

/-- `skip-key-not-pressed Vx` (R171). -/
def execSkipKeyNotPressed (x : Reg) (s : State) : Host.Outcome State Fault Refusal :=
  skipOnKey x false s

/-- `get-delay Vx` (R172): the timer before this step's decay. -/
def execGetDelay (x : Reg) (s : State) : Host.Outcome State Fault Refusal :=
  .next (s.setReg x s.dt).advance

/-- `wait-key Vx` (R173): the lowest pressed key; with none the step completes with nothing written, and
`pc` still at this instruction (decision D14). -/
def execWaitKey (x : Reg) (s : State) : Host.Outcome State Fault Refusal :=
  match s.lowestPressed with
  | some k => .next (s.setReg x (BitVec.ofNat 8 k.val)).advance
  | none => .next s

/-- `set-delay Vx` (R174). -/
def execSetDelay (x : Reg) (s : State) : Host.Outcome State Fault Refusal :=
  .next (s.setDt (s.reg x)).advance

/-- `set-sound Vx` (R175). -/
def execSetSound (x : Reg) (s : State) : Host.Outcome State Fault Refusal :=
  .next (s.setSt (s.reg x)).advance

end Sys2Proof.Machine
end

