-- ==== Sys2Proof/Machine/Cycle.lean ====
section
/-! DEFINITION. The step cycle around `exec`: fetch, decode, execute, timer decay (30_encoding.md R60). -/

namespace Sys2Proof.Machine

/-- `Fetch()` (R61): the two bytes at `pc`, high byte first; `pc + 1` past 0xFFF is
`AddressOutOfRange(pc + 1)`. An odd `pc` is no fault (R46, decision D23). -/
def fetch (s : State) : Except Fault Word :=
  if 0xFFF < s.pc.toNat + 1 then .error (.addressOutOfRange (s.pc.toNat + 1))
  else .ok (wordOfBytes (s.readByte s.pc.toNat) (s.readByte (s.pc.toNat + 1)))

/-- What follows an instruction in its step (R60, R213): the timers decay, unless the instruction raised
a fault, which leaves them as they were (R207, decision D5). -/
def afterInstr (t : State) : State :=
  match t.fault with
  | some _ => t
  | none => t.timerDecay

/-- The end of a step of a running core. -/
def endStep : Host.Outcome State Fault Refusal → Host.Outcome State Fault Refusal
  | .next t => .next (afterInstr t)
  | .fault f => .fault f
  | .refused r => .refused r

/-- One step of a running core on the opcode it fetched: decode and execute, then the decay. -/
def runOpcode (op : Word) (s : State) : Host.Outcome State Fault Refusal :=
  match decodeWord op with
  | some i => endStep (exec i s)
  | none => raise (.unknownOpcode op) s

/-- `step(rand)` (R60): a halted core does nothing (R208); else fetch, decode, execute, decay. -/
def cycle (s : State) : Host.Outcome State Fault Refusal :=
  match s.fault with
  | some _ => .next s
  | none =>
    match fetch s with
    | .ok op => runOpcode op s
    | .error f => raise f s

/-- `s` with an opcode's two bytes in memory where `fetch` reads, high byte first (R44); for a `pc` at which
fetch faults, `s` itself. -/
def placeOpcode (s : State) (op : Word) : State :=
  if 0xFFF < s.pc.toNat + 1 then s else s.writeBytes s.pc.toNat [highByte op, lowByte op]

end Sys2Proof.Machine
end

