-- ==== Sys2Proof/Machine/Step.lean ====
section
/-! DEFINITION. One step of the machine (30_encoding.md R60), and an instruction placed where it fetches. -/

namespace Sys2Proof.Machine

/-- One step (R60). -/
def step (s : State) : Host.Outcome State Fault Refusal := cycle s

/-- `s` with the opcode `w` where the next step fetches. It stands for the host's `LoadProgram`, which is
how a program comes into memory (R242; log entry 5); nothing but the two bytes changes. -/
def State.withFetchWord (s : State) (nbits w : Nat) : State := placeOpcode s (tableWord nbits w)

end Sys2Proof.Machine
end

