-- ==== Sys2Proof/Machine/HostOps.lean ====
section
/-! DEFINITION. The host operations (60_exceptions.md R215): all that the outside can do to the core. -/

namespace Sys2Proof.Machine

/-- The status `LoadProgram` returns (R222, R242). -/
inductive LoadStatus where
  /-- The image was copied. -/
  | ok
  /-- The image is longer than 3584 bytes; nothing was written. -/
  | imageTooLarge
  deriving DecidableEq, Repr

/-- What the host can read after a step (R215). -/
structure HostView where
  /-- The framebuffer. -/
  fb : Vector (BitVec 64) 32
  /-- The redraw flag. -/
  draw : Bool
  /-- The sound timer. -/
  st : Byte
  /-- The fault register. -/
  fault : Option Fault
  deriving DecidableEq, Repr

/-- An operation of the host that acts on the core (R215). The random byte of a step is no argument here:
the model takes it from `Config.randByte` (log entry 2). -/
inductive HostOp where
  /-- `Reset`, R240. -/
  | reset
  /-- `LoadProgram(bytes)`, R242. -/
  | loadProgram (bytes : List Byte)
  /-- `SetKey(k, b)`, R216. -/
  | setKey (k : KeyCode) (b : Bool)
  /-- `ClearRedraw`, R217. -/
  | clearRedraw
  /-- `Step`, R60. -/
  | step
  deriving DecidableEq, Repr

/-- `Reset()` (R240): the reset state, with this core's own `FONT`; the stream of random bytes is the
host's and goes on (log entry 24). -/
def State.hostReset (s : State) : State :=
  { State.reset with font := s.font, randIndex := s.randIndex }

/-- What `LoadProgram(bytes)` returns (R242). -/
def loadStatus (bytes : List Byte) : LoadStatus :=
  if Config.maxImage < bytes.length then .imageTooLarge else .ok

/-- What `LoadProgram(bytes)` does (R242): byte `k` to `MEM[0x200 + k]`; nothing where the image is too
large (R222). -/
def State.loadProgram (s : State) (bytes : List Byte) : State :=
  match loadStatus bytes with
  | .ok => s.writeBytes Config.progBase bytes
  | .imageTooLarge => s

/-- `SetKey(k, b)` (R216). -/
def State.setKey (s : State) (k : KeyCode) (b : Bool) : State := { s with key := s.key.set k b }

/-- `ClearRedraw` (R217). -/
def State.clearRedraw (s : State) : State := { s with draw := false }

/-- The host's reads of `FB`, `DRAW`, `ST`, `FAULT` (R215). -/
def State.hostView (s : State) : HostView := { fb := s.fb, draw := s.draw, st := s.st, fault := s.fault }

/-- One host operation, between steps (R57, R215). -/
def hostAct : HostOp → State → Host.Outcome State Fault Refusal
  | .reset, s => .next s.hostReset
  | .loadProgram bytes, s => .next (s.loadProgram bytes)
  | .setKey k b, s => .next (s.setKey k b)
  | .clearRedraw, s => .next s.clearRedraw
  | .step, s => step s

end Sys2Proof.Machine
end

