-- ==== Sys2Proof/Safety.lean ====
section
/-! DEFINITION. The terms claims are made in: the components of the state and what stays the same, the
access table (10_state.md R23), the fault table (60_exceptions.md R200), the invariant of every run. -/

namespace Sys2Proof.Machine

/-! ### Components of the state, and frames -/

/-- The pieces a state is made of: the tuple of 10_state.md, one register, slot, byte, cell or key at a
time, and the model's own two fields. -/
inductive Component where
  | reg (x : Reg)
  | index
  | pc
  | depth
  | slot (k : Fin 16)
  | delayTimer
  | soundTimer
  | byte (a : Nat)
  | cell (c : Nat)
  | key (k : KeyCode)
  | redraw
  | fault
  | font
  | randIndex
  deriving DecidableEq, Repr

/-- The component holds in `t` what it holds in `s`. A byte is compared as it READS. -/
def Same (s t : State) : Component → Prop
  | .reg x => t.reg x = s.reg x
  | .index => t.i = s.i
  | .pc => t.pc = s.pc
  | .depth => t.sp = s.sp
  | .slot k => t.stack[k] = s.stack[k]
  | .delayTimer => t.dt = s.dt
  | .soundTimer => t.st = s.st
  | .byte a => t.readByte a = s.readByte a
  | .cell c => t.cell c = s.cell c
  | .key k => t.pressed k = s.pressed k
  | .redraw => t.draw = s.draw
  | .fault => t.fault = s.fault
  | .font => t.font = s.font
  | .randIndex => t.randIndex = s.randIndex

/-- THE FRAME: every component not named by `written` is the same in `t` as in `s`. -/
def KeepsAllBut (written : Component → Prop) (s t : State) : Prop := ∀ c, ¬ written c → Same s t c

/-- The addresses of `len` bytes from `a` on. -/
def InBytes (a len : Nat) : Component → Prop
  | .byte b => a ≤ b ∧ b < a + len
  | _ => False

/-- The registers V0 to Vx. -/
def InRegsUpTo (x : Reg) : Component → Prop
  | .reg r => r ≤ x
  | _ => False

/-- The cells of the rectangle of `n` rows of 8 columns at column `vx`, row `vy` (R161). -/
def InRectangle (vx vy : Byte) (n : Nat) : Component → Prop
  | .cell c => ∃ r col, r < n ∧ col < 8 ∧ c = (vy.toNat + r) * 64 + vx.toNat + col
  | _ => False

/-- Any cell of the framebuffer. -/
def AnyCell : Component → Prop
  | .cell _ => True
  | _ => False

/-! ### The access table (R23) -/

/-- What an instruction that completes may write: the column "instructions that write" of R23, read by
instruction. `random` also uses up a random byte (the model's `randIndex`). -/
def MayWrite : Instr → State → Component → Prop
  | .clearScreen, _, c => c = .pc ∨ c = .redraw ∨ AnyCell c
  | .ret, _, c => c = .pc ∨ c = .depth
  | .jump _, _, c => c = .pc
  | .call _, s, c => c = .pc ∨ c = .depth ∨ ∃ k : Fin 16, k.val = s.sp.val ∧ c = .slot k
  | .skipEqImm _ _, _, c => c = .pc
  | .skipNeImm _ _, _, c => c = .pc
  | .skipEqReg _ _, _, c => c = .pc
  | .skipNeReg _ _, _, c => c = .pc
  | .setImm x _, _, c => c = .pc ∨ c = .reg x
  | .addImm x _, _, c => c = .pc ∨ c = .reg x
  | .setReg x _, _, c => c = .pc ∨ c = .reg x
  | .orReg x _, _, c => c = .pc ∨ c = .reg x
  | .andReg x _, _, c => c = .pc ∨ c = .reg x
  | .xorReg x _, _, c => c = .pc ∨ c = .reg x
  | .addReg x _, _, c => c = .pc ∨ c = .reg x ∨ c = .reg vf
  | .sub x _, _, c => c = .pc ∨ c = .reg x ∨ c = .reg vf
  | .shr x, _, c => c = .pc ∨ c = .reg x ∨ c = .reg vf
  | .subn x _, _, c => c = .pc ∨ c = .reg x ∨ c = .reg vf
  | .shl x, _, c => c = .pc ∨ c = .reg x ∨ c = .reg vf
  | .setI _, _, c => c = .pc ∨ c = .index
  | .jumpV0 _, _, c => c = .pc
  | .random x _, _, c => c = .pc ∨ c = .reg x ∨ c = .randIndex
  | .draw x y n, s, c => c = .pc ∨ c = .reg vf ∨ c = .redraw ∨ InRectangle (s.reg x) (s.reg y) n c
  | .skipKeyPressed _, _, c => c = .pc
  | .skipKeyNotPressed _, _, c => c = .pc
  | .getDelay x, _, c => c = .pc ∨ c = .reg x
  | .waitKey x, _, c => c = .pc ∨ c = .reg x
  | .setDelay _, _, c => c = .pc ∨ c = .delayTimer
  | .setSound _, _, c => c = .pc ∨ c = .soundTimer
  | .addI _, _, c => c = .pc ∨ c = .index
  | .fontAddr _, _, c => c = .pc ∨ c = .index
  | .bcd _, s, c => c = .pc ∨ InBytes s.i.toNat 3 c
  | .storeRegs x, s, c => c = .pc ∨ InBytes s.i.toNat (x.val + 1) c
  | .loadRegs x, _, c => c = .pc ∨ InRegsUpTo x c

/-! ### The fault table (R200) -/

/-- The fault an instruction meets in a state, if any: the column "condition" of R200, with the `info` it
records, and `AddressOutOfRange` before `OutOfBoundsDraw` (R210). -/
def faultOf : Instr → State → Option Fault
  | .call _, s => if s.sp.val = 16 then some (.stackOverflow s.pc) else none
  | .ret, s => if s.sp.val = 0 then some (.stackUnderflow s.pc) else none
  | .draw x y n, s =>
    if 1 ≤ n ∧ 0xFFF < s.i.toNat + n - 1 then some (.addressOutOfRange (s.i.toNat + n - 1))
    else if 1 ≤ n ∧ 2047 < ((s.reg y).toNat + n - 1) * 64 + (s.reg x).toNat + 7 then
      some (.outOfBoundsDraw (((s.reg y).toNat + n - 1) * 64 + (s.reg x).toNat + 7))
    else none
  | .bcd _, s => if 0xFFF < s.i.toNat + 2 then some (.addressOutOfRange (s.i.toNat + 2)) else none
  | .storeRegs x, s =>
    if 0xFFF < s.i.toNat + x.val then some (.addressOutOfRange (s.i.toNat + x.val)) else none
  | .loadRegs x, s =>
    if 0xFFF < s.i.toNat + x.val then some (.addressOutOfRange (s.i.toNat + x.val)) else none
  | .skipKeyPressed x, s => if 15 < (s.reg x).toNat then some (.keyIndexOutOfRange (s.reg x)) else none
  | .skipKeyNotPressed x, s =>
    if 15 < (s.reg x).toNat then some (.keyIndexOutOfRange (s.reg x)) else none
  | .clearScreen, _ | .jump _, _ | .skipEqImm _ _, _ | .skipNeImm _ _, _ | .skipEqReg _ _, _
  | .skipNeReg _ _, _ | .setImm _ _, _ | .addImm _ _, _ | .setReg _ _, _ | .orReg _ _, _
  | .andReg _ _, _ | .xorReg _ _, _ | .addReg _ _, _ | .sub _ _, _ | .shr _, _ | .subn _ _, _
  | .shl _, _ | .setI _, _ | .jumpV0 _, _ | .random _ _, _ | .getDelay _, _ | .waitKey _, _
  | .setDelay _, _ | .setSound _, _ | .addI _, _ | .fontAddr _, _ => none

/-! ### Runs -/

/-- The core runs: `FAULT` is none (R208). -/
def Running (s : State) : Prop := s.fault = none

/-- The bytes at `pc` exist and decode to `i`. -/
def FetchesInstr (s : State) (i : Instr) : Prop :=
  s.pc.toNat ≤ 0xFFE ∧
    decodeWord (wordOfBytes (s.readByte s.pc.toNat) (s.readByte (s.pc.toNat + 1))) = some i

/-- Memory is in its canonical form. -/
def MemCanonical (s : State) : Prop := Memory.wf s.font s.mem = true

/-- THE INVARIANT of every run: memory is canonical; `pc` is at most 0x10FE (R12), so that it never
wraps; every stack slot is at most 0x1000 (R12: a pushed value is some `pc + 2`). -/
def Inv (s : State) : Prop :=
  MemCanonical s ∧ s.pc.toNat ≤ 0x10FE ∧ ∀ k : Fin 16, s.stack[k].toNat ≤ 0x1000

/-- `pc` addresses a jump to its own address: the "done" idiom (70_reset_and_hazards.md R250). -/
def Spinning (s : State) : Prop := Running s ∧ ∃ nnn, FetchesInstr s (.jump nnn) ∧ s.pc = addrWord nnn

/-- `s` with its timers decayed once (R213), in the spec's words: down by one, never below 0. -/
def TimersDecayed (s t : State) : Prop :=
  t.dt.toNat = s.dt.toNat - 1 ∧ t.st.toNat = s.st.toNat - 1 ∧
    KeepsAllBut (fun c => c = .delayTimer ∨ c = .soundTimer) s t

/-- The two states differ at most in stack slots that are not in use (R14). -/
def SameButStaleSlots (s t : State) : Prop :=
  KeepsAllBut (fun c => ∃ k : Fin 16, s.sp.val ≤ k.val ∧ c = .slot k) s t ∧ t.mem = s.mem

/-! ### Which instructions -/

/-- The six instructions that write VF as a flag (R11). -/
def WritesFlag : Instr → Prop
  | .addReg _ _ | .sub _ _ | .shr _ | .subn _ _ | .shl _ | .draw _ _ _ => True
  | .clearScreen | .ret | .jump _ | .call _ | .skipEqImm _ _ | .skipNeImm _ _ | .skipEqReg _ _
  | .skipNeReg _ _ | .setImm _ _ | .addImm _ _ | .setReg _ _ | .orReg _ _ | .andReg _ _
  | .xorReg _ _ | .setI _ | .jumpV0 _ | .random _ _ | .skipKeyPressed _ | .skipKeyNotPressed _
  | .getDelay _ | .waitKey _ | .setDelay _ | .setSound _ | .addI _ | .fontAddr _ | .bcd _
  | .storeRegs _ | .loadRegs _ => False

/-- VF is the instruction's ordinary destination: `x = 15` (R11). -/
def VfIsDestination : Instr → Prop
  | .setImm x _ | .addImm x _ | .setReg x _ | .orReg x _ | .andReg x _ | .xorReg x _ | .random x _
  | .getDelay x | .waitKey x | .loadRegs x => x = vf
  | .clearScreen | .ret | .jump _ | .call _ | .skipEqImm _ _ | .skipNeImm _ _ | .skipEqReg _ _
  | .skipNeReg _ _ | .addReg _ _ | .sub _ _ | .shr _ | .subn _ _ | .shl _ | .setI _ | .jumpV0 _
  | .draw _ _ _ | .skipKeyPressed _ | .skipKeyNotPressed _ | .setDelay _ | .setSound _ | .addI _
  | .fontAddr _ | .bcd _ | .storeRegs _ => False

/-- The three instructions that read `KEY` (R18). -/
def ReadsKeys : Instr → Prop
  | .skipKeyPressed _ | .skipKeyNotPressed _ | .waitKey _ => True
  | .clearScreen | .ret | .jump _ | .call _ | .skipEqImm _ _ | .skipNeImm _ _ | .skipEqReg _ _
  | .skipNeReg _ _ | .setImm _ _ | .addImm _ _ | .setReg _ _ | .orReg _ _ | .andReg _ _
  | .xorReg _ _ | .addReg _ _ | .sub _ _ | .shr _ | .subn _ _ | .shl _ | .setI _ | .jumpV0 _
  | .random _ _ | .draw _ _ _ | .getDelay _ | .setDelay _ | .setSound _ | .addI _ | .fontAddr _
  | .bcd _ | .storeRegs _ | .loadRegs _ => False

/-- The two display instructions: the only ones that write `FB` and `DRAW` (R16, R19). -/
def IsDisplay : Instr → Prop
  | .clearScreen | .draw _ _ _ => True
  | .ret | .jump _ | .call _ | .skipEqImm _ _ | .skipNeImm _ _ | .skipEqReg _ _
  | .skipNeReg _ _ | .setImm _ _ | .addImm _ _ | .setReg _ _ | .orReg _ _ | .andReg _ _
  | .xorReg _ _ | .addReg _ _ | .sub _ _ | .shr _ | .subn _ _ | .shl _ | .setI _ | .jumpV0 _
  | .random _ _ | .skipKeyPressed _ | .skipKeyNotPressed _ | .getDelay _ | .waitKey _
  | .setDelay _ | .setSound _ | .addI _ | .fontAddr _ | .bcd _ | .storeRegs _ | .loadRegs _ => False

/-- The outcome of an instruction with a change made to every next state. -/
def mapNext (f : State → State) : Host.Outcome State Fault Refusal → Host.Outcome State Fault Refusal
  | .next t => .next (f t)
  | .fault r => .fault r
  | .refused r => .refused r

end Sys2Proof.Machine
end

