-- ==== Sys2Proof/Certificates/Slice0/Obligations.lean ====
section
/-! DEFINITION. The statements for the provers: what the core does, from the numbered rules of spec/. Each
instruction's statement says that it completes, what it writes, and its frame. -/

open Sys2Proof Sys2Proof.Machine

/-! ### Encoding (30_encoding.md) -/

/-- R64, R67: decoding the word of a well-formed instruction gives the instruction back. 29 of the 34
patterns are the spec's general knowledge (decision D1; log entry 15). -/
def Obligations.DecodeAfterEncodeIsTheInstruction : Prop :=
  ∀ i : Instr, i.wellFormed = true → decodeWord (encode i) = some i

/-- R64, R66: a decoded instruction is well-formed, and encoding it gives the word back, except that the
ignored field `y` of `shr` and `shl` is written as 0 (decision D1; log entries 7, 15). -/
def Obligations.EncodeAfterDecodeIsTheWord : Prop :=
  ∀ (op : Word) (i : Instr), decodeWord op = some i →
    i.wellFormed = true ∧
      encode i = if (∃ x, i = .shr x) ∨ (∃ x, i = .shl x) then op &&& 0xFF0F else op

/-- R66, R67: a word is an instruction exactly when it matches a row of the opcode map, the instruction's
own row is one it matches, and no word matches two rows (decisions D1, D3; log entries 15, 16). -/
def Obligations.OpcodeMapDecidesEveryWord : Prop :=
  (∀ op : Word, (∃ i, decodeWord op = some i) ↔ ∃ r ∈ opcodeMap, op &&& r.mask = r.bits) ∧
  (∀ (op : Word) (i : Instr), decodeWord op = some i → op &&& (rowOf i).mask = (rowOf i).bits) ∧
  (∀ i : Instr, rowOf i ∈ opcodeMap) ∧
  (∀ op : Word, ∀ r ∈ opcodeMap, ∀ q ∈ opcodeMap,
    op &&& r.mask = r.bits → op &&& q.mask = q.bits → r = q)

/-- R68: the unknown words, family by family (decisions D1 to D3; log entries 15, 16). -/
def Obligations.UnknownWordsAreTheSixFamilies : Prop :=
  ∀ op : Word, decodeWord op = none ↔
    (op.toNat / 4096 = 0x0 ∧ op.toNat ≠ 0x00E0 ∧ op.toNat ≠ 0x00EE) ∨
    (op.toNat / 4096 = 0x5 ∧ op.toNat % 16 ≠ 0) ∨
    (op.toNat / 4096 = 0x8 ∧ op.toNat % 16 ∈ [8, 9, 0xA, 0xB, 0xC, 0xD, 0xF]) ∨
    (op.toNat / 4096 = 0x9 ∧ op.toNat % 16 ≠ 0) ∨
    (op.toNat / 4096 = 0xE ∧ op.toNat % 256 ∉ [0x9E, 0xA1]) ∨
    (op.toNat / 4096 = 0xF ∧
      op.toNat % 256 ∉ [0x07, 0x0A, 0x15, 0x18, 0x1E, 0x29, 0x33, 0x55, 0x65])

/-- R67: the five words the source shows, and one of each other family (95_test_vectors.md S7 to S10). -/
def Obligations.SampleWordsDecode : Prop :=
  decode [0x60, 0x05] = .ok (.setImm 0 0x05, []) ∧ decode [0xA2, 0x34] = .ok (.setI 0x234, []) ∧
  decode [0xF0, 0x1E] = .ok (.addI 0, []) ∧ decode [0x00, 0xE0] = .ok (.clearScreen, []) ∧
  decode [0x33, 0x10] = .ok (.skipEqImm 3 0x10, []) ∧ decode [0x80, 0x14] = .ok (.addReg 0 1, []) ∧
  decode [0xD1, 0x22] = .ok (.draw 1 2 2, []) ∧ decode [0xE5, 0x9E] = .ok (.skipKeyPressed 5, [])

/-- R62: every instruction is two bytes long; the bytes after it are untouched and do not matter. -/
def Obligations.EveryInstructionIsTwoBytes : Prop :=
  ∀ (bytes rest : List Byte) (i : Instr), decode bytes = .ok (i, rest) →
    ∃ hi lo, bytes = hi :: lo :: rest ∧ ∀ rest', decode (hi :: lo :: rest') = .ok (i, rest')

/-! ### The step cycle -/

/-- R44: the byte at the lower address is the high byte of the opcode, for the fetch and for the bytes of a
program image alike. -/
def Obligations.FetchIsBigEndian : Prop :=
  (∀ s : State, s.pc.toNat ≤ 0xFFE → ∃ op, fetch s = .ok op ∧
    op.toNat = (s.readByte s.pc.toNat).toNat * 256 + (s.readByte (s.pc.toNat + 1)).toNat) ∧
  (∀ (s : State) (hi lo : Byte) (rest : List Byte), MemCanonical s → s.pc = 0x200 →
    (hi :: lo :: rest).length ≤ 3584 →
    ∃ op, fetch (s.loadProgram (hi :: lo :: rest)) = .ok op ∧ op.toNat = hi.toNat * 256 + lo.toNat)

/-- R60: a running core whose bytes at `pc` decode to `i` executes `i`, and then decays the timers, unless
`i` raised a fault (decisions D4, D5). -/
def Obligations.StepRunsTheDecodedInstruction : Prop :=
  ∀ (s u : State) (i : Instr), Running s → FetchesInstr s i → exec i s = .next u →
    i.wellFormed = true ∧ ∃ t, step s = .next t ∧
      (u.fault = none → TimersDecayed u t) ∧ (u.fault ≠ none → t = u)

/-- R60, R61, R201: a running core faults at a fetch past the end of memory, and at a word that is no
instruction; nothing but `FAULT` changes (decisions D2, D3, D7; log entries 14, 16). -/
def Obligations.StepFaultsOnFetchAndDecode : Prop :=
  (∀ s : State, Running s → 0xFFE < s.pc.toNat →
    step s = .next { s with fault := some (.addressOutOfRange (s.pc.toNat + 1)) }) ∧
  (∀ s : State, Running s → s.pc.toNat ≤ 0xFFE →
    decodeWord (wordOfBytes (s.readByte s.pc.toNat) (s.readByte (s.pc.toNat + 1))) = none →
    step s = .next { s with fault := some (.unknownOpcode
      (wordOfBytes (s.readByte s.pc.toNat) (s.readByte (s.pc.toNat + 1)))) })

/-- The placing of an instruction for the next step (log entry 5) is what that step fetches, and changes
nothing but the two bytes at `pc`. -/
def Obligations.PlacedWordIsFetched : Prop :=
  ∀ (s : State) (w : Nat) (i : Instr), MemCanonical s → s.pc.toNat ≤ 0xFFE →
    decodeTableWord 16 w = some i →
    FetchesInstr (s.withFetchWord 16 w) i ∧
      KeepsAllBut (InBytes s.pc.toNat 2) s (s.withFetchWord 16 w)

/-- R251, R207, R208: a step always answers a next state: it completes, waits, faults or is halted. That a
fault is a next state is the model's form (log entry 1). -/
def Obligations.StepAlwaysAnswersANextState : Prop :=
  ∀ s : State, ∃ t, step s = .next t

/-- R213: on every step that completes each timer falls by one, never below 0, whichever the instruction
(where it sets the timer, the new value falls: SetTimersAreOneLessAfterTheStep); on a faulting step
neither changes (decision D5). -/
def Obligations.TimersDecayOnEveryCompletedStep : Prop :=
  ∀ s t : State, Running s → step s = .next t →
    (t.fault = none → (∀ x, ¬ FetchesInstr s (.setDelay x)) → t.dt.toNat = s.dt.toNat - 1) ∧
    (t.fault = none → (∀ x, ¬ FetchesInstr s (.setSound x)) → t.st.toNat = s.st.toNat - 1) ∧
    (t.fault ≠ none → t.dt = s.dt ∧ t.st = s.st)

/-! ### Faults and halting (60_exceptions.md) -/

/-- R200, R210: an instruction raises a fault exactly when the table says so, with the table's `info`, and
`AddressOutOfRange` before `OutOfBoundsDraw`; else it completes and leaves `FAULT` alone (decisions D6 to
D9, D27; log entries 13, 14, 19). -/
def Obligations.FaultTableIsExact : Prop :=
  ∀ (i : Instr) (s : State),
    (∀ f, faultOf i s = some f → exec i s = .next { s with fault := some f }) ∧
    (faultOf i s = none → ∃ t, exec i s = .next t ∧ t.fault = s.fault)

/-- R207: a step that faults changes nothing but `FAULT` (decision D5; log entry 19). -/
def Obligations.FaultsArePrecise : Prop :=
  ∀ s t : State, Running s → step s = .next t → t.fault ≠ none → t = { s with fault := t.fault }

/-- R209: on a halted core a step changes nothing and no host operation but `Reset` clears `FAULT`;
`Reset` does, with everything else (that a fault halts the core is decision D4; log entries 1, 24). -/
def Obligations.OnlyResetLeavesTheHaltedState : Prop :=
  ∀ s : State, s.fault ≠ none →
    step s = .next s ∧
    (∀ op, op ≠ HostOp.reset → ∃ t, hostAct op s = .next t ∧ t.fault = s.fault) ∧
    (∃ t, hostAct .reset s = .next t ∧ t.fault = none ∧
      t = { State.reset with font := s.font, randIndex := s.randIndex })

/-! ### Who reads and writes what (10_state.md) -/

/-- R23: THE FRAME of every instruction: one that does not fault keeps every register, slot, byte of memory,
cell, key, timer and flag that its row of the access table does not let it write. -/
def Obligations.EveryInstructionKeepsWhatItsRowDoesNotWrite : Prop :=
  ∀ (i : Instr) (s t : State), faultOf i s = none → exec i s = .next t → KeepsAllBut (MayWrite i s) s t

/-- R11: exactly six instructions write VF as a flag, and they write 0 or 1; no other writes VF unless it is
its ordinary destination (`draw` without a collision: decision D10; `x = 15`: D13; log entries 12, 13). -/
def Obligations.OnlySixInstructionsWriteVfAsAFlag : Prop :=
  ∀ (i : Instr) (s t : State), faultOf i s = none → exec i s = .next t →
    (WritesFlag i → t.reg vf = 0 ∨ t.reg vf = 1) ∧
    (¬ WritesFlag i → ¬ VfIsDestination i → t.reg vf = s.reg vf)

/-- R18: the core only reads `KEY`: no step writes it, the host's `SetKey` writes the one flag it names, and
the instructions that read the flags (that act differently, in some state, when the flags are others) are
exactly the two skips on key and `wait-key`. -/
def Obligations.KeysAreReadOnlyToTheCore : Prop :=
  (∀ s t : State, step s = .next t → t.key = s.key) ∧
  (∀ (s : State) (k : KeyCode) (b : Bool), (s.setKey k b).pressed k = b ∧
    KeepsAllBut (fun c => c = .key k) s (s.setKey k b)) ∧
  (∀ i : Instr, ReadsKeys i ↔ ∃ (s : State) (keys : Vector Bool 16),
    exec i { s with key := keys } ≠ mapNext (fun t => { t with key := keys }) (exec i s))

/-- R214: nothing the core does depends on `ST`: from two states that differ in it alone, a step leads to
two that differ in it alone; and the host reads it. -/
def Obligations.SoundTimerOnlyAffectsItself : Prop :=
  ∀ (s : State) (b : Byte), s.hostView.st = s.st ∧
    ∃ t u, step s = .next t ∧ step (s.setSt b) = .next u ∧ u.setSt 0 = t.setSt 0

/-- R217: the core sets `DRAW` on `clear-screen` and `draw` (always: decisions D12, D32; log entry 13), no step
clears it, nothing it does depends on it, and the host's `ClearRedraw` clears it and nothing else. -/
def Obligations.RedrawFlagIsSetByTheCoreAndClearedByTheHost : Prop :=
  (∀ (i : Instr) (s t : State), faultOf i s = none → exec i s = .next t →
    (IsDisplay i → t.draw = true) ∧ (¬ IsDisplay i → t.draw = s.draw)) ∧
  (∀ s t : State, step s = .next t → s.draw = true → t.draw = true) ∧
  (∀ (s : State) (b : Bool), ∃ t u, step s = .next t ∧ step { s with draw := b } = .next u ∧
    u.clearRedraw = t.clearRedraw) ∧
  (∀ s : State, s.clearRedraw.draw = false ∧ KeepsAllBut (fun c => c = .redraw) s s.clearRedraw)

/-- R19, C7 (the source's first testable property): a step whose instruction is neither `clear-screen` nor
`draw` leaves the framebuffer and the redraw flag as they were. -/
def Obligations.FramebufferChangesOnlyByDisplayInstructions : Prop :=
  ∀ s t : State, step s = .next t → (∀ i, FetchesInstr s i → ¬ IsDisplay i) →
    t.fb = s.fb ∧ t.draw = s.draw

/-- R14: stack slots that are not in use cannot be observed: states that differ in them alone lead to states
that differ in them alone (decision D29; log entry 8). -/
def Obligations.StaleStackSlotsAreUnobservable : Prop :=
  ∀ s s' : State, SameButStaleSlots s s' →
    ∃ t t', step s = .next t ∧ step s' = .next t' ∧ SameButStaleSlots t t'

/-- R218: only `random` reads the random byte (decision D21; log entry 2): every other instruction acts
alike whichever byte is next. -/
def Obligations.OnlyRandomReadsTheRandomByte : Prop :=
  ∀ (i : Instr) (s : State) (k : Nat), (∀ x kk, i ≠ .random x kk) →
    exec i { s with randIndex := k } = mapNext (fun t => { t with randIndex := k }) (exec i s)

/-! ### The invariant -/

/-- R24, R12: the invariant holds after reset, whatever `FONT` is. -/
def Obligations.InvariantHoldsAtReset : Prop :=
  Inv State.reset ∧ ∀ s : State, Inv s.hostReset

/-- R12: EVERY STEP keeps memory canonical, `pc` at most 0x10FE (so that it never wraps) and every stack
slot at most 0x1000 (that a fetch past 0xFFE faults is decision D7). -/
def Obligations.EveryStepKeepsTheInvariant : Prop :=
  ∀ s t : State, Inv s → step s = .next t → Inv t

/-- R215: every host operation keeps the invariant. -/
def Obligations.HostOperationsKeepTheInvariant : Prop :=
  ∀ (op : HostOp) (s t : State), Inv s → hostAct op s = .next t → Inv t

/-- The model's memory is plain data in one form: canonical memories that read alike are the same list. -/
def Obligations.CanonicalMemoriesThatReadAlikeAreEqual : Prop :=
  ∀ s t : State, MemCanonical s → MemCanonical t → s.font = t.font →
    (∀ a, a < 4096 → s.readByte a = t.readByte a) → s.mem = t.mem

/-! ### Reset and load (70_reset_and_hazards.md) -/

/-- R24, R240: what `Reset` leaves, from every state, whatever `FONT` is; it is idempotent, and the model's
reset state is one (`MEM` above the font: decision D19; `DRAW`, `FAULT`: D30; log entries 3, 4, 20). -/
def Obligations.ResetLeavesTheStatedValues : Prop :=
  State.reset.hostReset = State.reset ∧
  ∀ s : State, ∃ t, hostAct .reset s = .next t ∧ t.hostReset = t ∧
    (∀ r, t.reg r = 0) ∧ t.i = 0 ∧ t.pc = 0x200 ∧ t.sp = 0 ∧ (∀ k : Fin 16, t.stack[k] = 0) ∧
    t.dt = 0 ∧ t.st = 0 ∧ (∀ a : Fin 80, t.readByte a.val = s.font[a]) ∧
    (∀ a, 80 ≤ a → a < 4096 → t.readByte a = 0) ∧ (∀ c, c < 2048 → t.cell c = false) ∧
    (∀ k, t.pressed k = false) ∧ t.draw = false ∧ t.fault = none

/-- R242: an image of at most 3584 bytes is copied to 0x200 byte for byte, and nothing else changes
(decisions D26, D33; log entry 23). -/
def Obligations.LoadProgramCopiesTheImage : Prop :=
  ∀ (s : State) (bytes : List Byte), MemCanonical s → bytes.length ≤ 3584 →
    ∃ t, hostAct (.loadProgram bytes) s = .next t ∧
      (∀ k (h : k < bytes.length), t.readByte (0x200 + k) = bytes[k]) ∧
      KeepsAllBut (InBytes 0x200 bytes.length) s t

/-- R222: an image that is too large is a status, not a fault: nothing is written; no load touches
`FAULT` (decision D26; log entry 23). -/
def Obligations.LoadStatusesAreNotFaults : Prop :=
  ∀ (s : State) (bytes : List Byte),
    (3584 < bytes.length → loadStatus bytes = .imageTooLarge ∧ hostAct (.loadProgram bytes) s = .next s) ∧
    (bytes.length ≤ 3584 → loadStatus bytes = .ok) ∧
    ∃ t, hostAct (.loadProgram bytes) s = .next t ∧ t.fault = s.fault

/-! ### Control flow (40_control_flow.md) -/

/-- R100: `return` pops the top slot into `pc`, adding nothing. -/
def Obligations.ReturnPopsIntoPc : Prop :=
  ∀ (s : State) (k : Fin 16), s.sp.val = k.val + 1 →
    ∃ t, exec .ret s = .next t ∧ t.pc = s.stack[k] ∧ t.sp.val = k.val ∧
      KeepsAllBut (fun c => c = .pc ∨ c = .depth) s t

/-- R101, R107: the two jumps, to `nnn` and to `nnn + V0`, neither reduced nor checked. -/
def Obligations.JumpsSetPc : Prop :=
  ∀ (nnn : Addr12) (s : State),
    (∃ t, exec (.jump nnn) s = .next t ∧ t.pc.toNat = nnn.toNat ∧ KeepsAllBut (fun c => c = .pc) s t) ∧
    (∃ t, exec (.jumpV0 nnn) s = .next t ∧ t.pc.toNat = nnn.toNat + (s.reg 0).toNat ∧
      KeepsAllBut (fun c => c = .pc) s t)

/-- R102: `call` pushes the address after it and jumps, while a slot is free. -/
def Obligations.CallPushesTheReturnAddress : Prop :=
  ∀ (nnn : Addr12) (s : State) (k : Fin 16), s.sp.val = k.val →
    ∃ t, exec (.call nnn) s = .next t ∧ t.stack[k] = s.pc + 2 ∧ t.sp.val = k.val + 1 ∧
      t.pc.toNat = nnn.toNat ∧ KeepsAllBut (fun c => c = .pc ∨ c = .depth ∨ c = .slot k) s t

/-- R100, R102 (the source's S4): a `call` and then a `return` end at the instruction after the call with
the depth it started with. -/
def Obligations.CallThenReturnComesBack : Prop :=
  ∀ (nnn : Addr12) (s : State) (k : Fin 16), s.sp.val = k.val →
    ∃ t u, exec (.call nnn) s = .next t ∧ exec .ret t = .next u ∧ u.pc = s.pc + 2 ∧
      KeepsAllBut (fun c => c = .pc ∨ c = .slot k) s u

/-- R103, with its encoding `3xkk`: skip where `V[x] = kk`. -/
def Obligations.SkipEqImmSkipsOnEquality : Prop :=
  (∀ op : Word, op &&& 0xF000 = 0x3000 → ∃ x kk, decodeWord op = some (.skipEqImm x kk) ∧
    x.val = op.toNat / 256 % 16 ∧ kk.toNat = op.toNat % 256) ∧
  (∀ (x : Reg) (kk : Byte) (s : State), ∃ t, exec (.skipEqImm x kk) s = .next t ∧
    t.pc = (if (s.reg x).toNat = kk.toNat then s.pc + 4 else s.pc + 2) ∧
    KeepsAllBut (fun c => c = .pc) s t)

/-- R104, R105, R106: the other three skips on registers. -/
def Obligations.RegisterSkipsCompare : Prop :=
  ∀ (x y : Reg) (kk : Byte) (s : State),
    (∃ t, exec (.skipNeImm x kk) s = .next t ∧
      t.pc = (if (s.reg x).toNat = kk.toNat then s.pc + 2 else s.pc + 4) ∧
      KeepsAllBut (fun c => c = .pc) s t) ∧
    (∃ t, exec (.skipEqReg x y) s = .next t ∧
      t.pc = (if (s.reg x).toNat = (s.reg y).toNat then s.pc + 4 else s.pc + 2) ∧
      KeepsAllBut (fun c => c = .pc) s t) ∧
    (∃ t, exec (.skipNeReg x y) s = .next t ∧
      t.pc = (if (s.reg x).toNat = (s.reg y).toNat then s.pc + 2 else s.pc + 4) ∧
      KeepsAllBut (fun c => c = .pc) s t)

/-! ### Registers and ALU (41_alu.md) -/

/-- R120, with its encoding `6xkk`. -/
def Obligations.SetImmWritesTheByte : Prop :=
  (∀ op : Word, op &&& 0xF000 = 0x6000 → ∃ x kk, decodeWord op = some (.setImm x kk) ∧
    x.val = op.toNat / 256 % 16 ∧ kk.toNat = op.toNat % 256) ∧
  (∀ (x : Reg) (kk : Byte) (s : State), ∃ t, exec (.setImm x kk) s = .next t ∧
    t.reg x = kk ∧ t.pc = s.pc + 2 ∧ KeepsAllBut (fun c => c = .pc ∨ c = .reg x) s t)

/-- R121, R122: the sum with `kk` modulo 256 and no flag; the copy of `V[y]`. -/
def Obligations.AddImmAndSetReg : Prop :=
  ∀ (x y : Reg) (kk : Byte) (s : State),
    (∃ t, exec (.addImm x kk) s = .next t ∧
      (t.reg x).toNat = ((s.reg x).toNat + kk.toNat) % 256 ∧ t.pc = s.pc + 2 ∧
      KeepsAllBut (fun c => c = .pc ∨ c = .reg x) s t) ∧
    (∃ t, exec (.setReg x y) s = .next t ∧ t.reg x = s.reg y ∧ t.pc = s.pc + 2 ∧
      KeepsAllBut (fun c => c = .pc ∨ c = .reg x) s t)

/-- R123, R124, R125: or, and, xor bit by bit; VF is not written unless it is the destination. -/
def Obligations.LogicIsBitwise : Prop :=
  ∀ (x y : Reg) (s : State),
    (∃ t, exec (.orReg x y) s = .next t ∧ t.pc = s.pc + 2 ∧
      (∀ b, b < 8 → (t.reg x).getLsbD b = ((s.reg x).getLsbD b || (s.reg y).getLsbD b)) ∧
      KeepsAllBut (fun c => c = .pc ∨ c = .reg x) s t) ∧
    (∃ t, exec (.andReg x y) s = .next t ∧ t.pc = s.pc + 2 ∧
      (∀ b, b < 8 → (t.reg x).getLsbD b = ((s.reg x).getLsbD b && (s.reg y).getLsbD b)) ∧
      KeepsAllBut (fun c => c = .pc ∨ c = .reg x) s t) ∧
    (∃ t, exec (.xorReg x y) s = .next t ∧ t.pc = s.pc + 2 ∧
      (∀ b, b < 8 → (t.reg x).getLsbD b = ((s.reg x).getLsbD b ^^ (s.reg y).getLsbD b)) ∧
      KeepsAllBut (fun c => c = .pc ∨ c = .reg x) s t)

/-- R126, R133: the sum modulo 256 and VF = carry; where `x = 15` VF ends as the flag (decision D13; log
entry 12). -/
def Obligations.AddRegSetsTheCarry : Prop :=
  ∀ (x y : Reg) (s : State), ∃ t, exec (.addReg x y) s = .next t ∧
    (x ≠ vf → (t.reg x).toNat = ((s.reg x).toNat + (s.reg y).toNat) % 256) ∧
    (t.reg vf).toNat = (if 255 < (s.reg x).toNat + (s.reg y).toNat then 1 else 0) ∧
    t.pc = s.pc + 2 ∧ KeepsAllBut (fun c => c = .pc ∨ c = .reg x ∨ c = .reg vf) s t

/-- R127, R129, R133: the two differences modulo 256 and VF = no borrow, equality included; where `x = 15`
VF ends as the flag (decision D13; log entry 12). -/
def Obligations.SubtractionsSetNoBorrow : Prop :=
  ∀ (x y : Reg) (s : State),
    (∃ t, exec (.sub x y) s = .next t ∧
      (x ≠ vf → (t.reg x).toNat = ((s.reg x).toNat + 256 - (s.reg y).toNat) % 256) ∧
      (t.reg vf).toNat = (if (s.reg y).toNat ≤ (s.reg x).toNat then 1 else 0) ∧
      t.pc = s.pc + 2 ∧ KeepsAllBut (fun c => c = .pc ∨ c = .reg x ∨ c = .reg vf) s t) ∧
    (∃ t, exec (.subn x y) s = .next t ∧
      (x ≠ vf → (t.reg x).toNat = ((s.reg y).toNat + 256 - (s.reg x).toNat) % 256) ∧
      (t.reg vf).toNat = (if (s.reg x).toNat ≤ (s.reg y).toNat then 1 else 0) ∧
      t.pc = s.pc + 2 ∧ KeepsAllBut (fun c => c = .pc ∨ c = .reg x ∨ c = .reg vf) s t)

/-- R128, R130, R133: the shifts of `V[x]` by one, VF = the bit shifted out; where `x = 15` VF ends as the
flag (decision D13; log entry 12). -/
def Obligations.ShiftsSetTheBitShiftedOut : Prop :=
  ∀ (x : Reg) (s : State),
    (∃ t, exec (.shr x) s = .next t ∧ (x ≠ vf → (t.reg x).toNat = (s.reg x).toNat / 2) ∧
      (t.reg vf).toNat = (s.reg x).toNat % 2 ∧
      t.pc = s.pc + 2 ∧ KeepsAllBut (fun c => c = .pc ∨ c = .reg x ∨ c = .reg vf) s t) ∧
    (∃ t, exec (.shl x) s = .next t ∧ (x ≠ vf → (t.reg x).toNat = (s.reg x).toNat * 2 % 256) ∧
      (t.reg vf).toNat = (s.reg x).toNat / 128 ∧
      t.pc = s.pc + 2 ∧ KeepsAllBut (fun c => c = .pc ∨ c = .reg x ∨ c = .reg vf) s t)

/-- R131, R218: `random` writes the byte drawn, masked by `kk`: the free value of the draw in a run, and the
same for whatever byte is drawn (decision D21; log entry 2). -/
def Obligations.RandomMasksTheByteDrawn : Prop :=
  ∀ (x : Reg) (kk : Byte) (s : State),
    (∃ t, exec (.random x kk) s = .next t ∧ t.reg x = Config.randByte s.randIndex &&& kk ∧
      t.randIndex = s.randIndex + 1 ∧ t.pc = s.pc + 2 ∧
      KeepsAllBut (fun c => c = .pc ∨ c = .reg x ∨ c = .randIndex) s t) ∧
    (∀ r : Byte, (randomWith r x kk s).reg x = r &&& kk)

/-! ### The index register and memory (42_index_memory.md) -/

/-- R140, with its encoding `Annn`. -/
def Obligations.SetIWritesTheAddress : Prop :=
  (∀ op : Word, op &&& 0xF000 = 0xA000 → ∃ nnn, decodeWord op = some (.setI nnn) ∧
    nnn.toNat = op.toNat % 4096) ∧
  (∀ (nnn : Addr12) (s : State), ∃ t, exec (.setI nnn) s = .next t ∧
    t.i.toNat = nnn.toNat ∧ t.pc = s.pc + 2 ∧ KeepsAllBut (fun c => c = .pc ∨ c = .index) s t)

/-- R141, R142: `I + V[x]` modulo 65536 with no flag, and five times the whole `V[x]` (decisions D16, D17;
log entry 18). -/
def Obligations.AddIAndFontAddr : Prop :=
  ∀ (x : Reg) (s : State),
    (∃ t, exec (.addI x) s = .next t ∧ t.i.toNat = (s.i.toNat + (s.reg x).toNat) % 65536 ∧
      t.pc = s.pc + 2 ∧ KeepsAllBut (fun c => c = .pc ∨ c = .index) s t) ∧
    (∃ t, exec (.fontAddr x) s = .next t ∧ t.i.toNat = 5 * (s.reg x).toNat ∧
      t.pc = s.pc + 2 ∧ KeepsAllBut (fun c => c = .pc ∨ c = .index) s t)

/-- R143: the three decimal digits of `V[x]` at `I`, `I + 1`, `I + 2`, where those addresses exist (the bound
is decision D7; log entry 14). -/
def Obligations.BcdStoresTheDecimalDigits : Prop :=
  ∀ (x : Reg) (s : State), MemCanonical s → s.i.toNat + 2 ≤ 0xFFF →
    ∃ t, exec (.bcd x) s = .next t ∧
      (s.reg x).toNat = 100 * (t.readByte s.i.toNat).toNat + 10 * (t.readByte (s.i.toNat + 1)).toNat +
        (t.readByte (s.i.toNat + 2)).toNat ∧
      (t.readByte (s.i.toNat + 1)).toNat ≤ 9 ∧ (t.readByte (s.i.toNat + 2)).toNat ≤ 9 ∧
      t.pc = s.pc + 2 ∧ KeepsAllBut (fun c => c = .pc ∨ InBytes s.i.toNat 3 c) s t

/-- R144: V0 to Vx at `I` ascending, `I` and the registers kept, where those addresses exist (decision D7;
log entry 14). -/
def Obligations.StoreRegsStoresTheRange : Prop :=
  ∀ (x : Reg) (s : State), MemCanonical s → s.i.toNat + x.val ≤ 0xFFF →
    ∃ t, exec (.storeRegs x) s = .next t ∧
      (∀ k : Reg, k ≤ x → t.readByte (s.i.toNat + k.val) = s.reg k) ∧
      t.pc = s.pc + 2 ∧ KeepsAllBut (fun c => c = .pc ∨ InBytes s.i.toNat (x.val + 1) c) s t

/-- R145: memory at `I` into V0 to Vx, `I` and memory kept, where those addresses exist (decision D7; log
entry 14). -/
def Obligations.LoadRegsLoadsTheRange : Prop :=
  ∀ (x : Reg) (s : State), s.i.toNat + x.val ≤ 0xFFF →
    ∃ t, exec (.loadRegs x) s = .next t ∧
      (∀ k : Reg, k ≤ x → t.reg k = s.readByte (s.i.toNat + k.val)) ∧
      t.pc = s.pc + 2 ∧ KeepsAllBut (fun c => c = .pc ∨ InRegsUpTo x c) s t

/-- R144, R145: what `store-regs` stored, a later `load-regs` of the same range loads, whatever happened to
the registers between (decision D7; log entry 14). -/
def Obligations.LoadRegsRestoresStoredRegs : Prop :=
  ∀ (x : Reg) (s t u : State), MemCanonical s → s.i.toNat + x.val ≤ 0xFFF →
    exec (.storeRegs x) s = .next t → u.mem = t.mem → u.font = t.font → u.i = t.i →
    ∃ w, exec (.loadRegs x) u = .next w ∧ ∀ k : Reg, k ≤ x → w.reg k = s.reg k

/-- R56, R247: bytes that `store-regs` has just stored are what the next fetch reads (decision D24; log
entry 18). -/
def Obligations.StoredBytesAreFetchedAtOnce : Prop :=
  ∀ (x j k : Reg) (s t : State), MemCanonical s → s.i.toNat + x.val ≤ 0xFFF →
    exec (.storeRegs x) s = .next t → k.val = j.val + 1 → k ≤ x → t.pc.toNat = s.i.toNat + j.val →
    ∃ op, fetch t = .ok op ∧ op.toNat = (s.reg j).toNat * 256 + (s.reg k).toNat

/-! ### The display (43_display.md) -/

/-- R160: every cell 0 and `DRAW` set, always (decision D12; log entry 13). -/
def Obligations.ClearScreenClearsEveryCell : Prop :=
  ∀ s : State, ∃ t, exec .clearScreen s = .next t ∧ (∀ c, t.cell c = false) ∧ t.draw = true ∧
    t.pc = s.pc + 2 ∧ KeepsAllBut (fun c => c = .pc ∨ c = .redraw ∨ AnyCell c) s t

/-- R161, R162: a draw in range XORs each sprite bit into its cell and no other cell, VF = 1 exactly when a
set cell met a set bit, and `DRAW` is set (bit order, VF = 0, `DRAW`, range and `n = 0`: decisions D9 to
D12, D32; log entry 13). -/
def Obligations.DrawXorsTheSprite : Prop :=
  ∀ (x y : Reg) (n : Nat) (s : State),
    (n = 0 ∨ (s.i.toNat + n - 1 ≤ 0xFFF ∧
      ((s.reg y).toNat + n - 1) * 64 + (s.reg x).toNat + 7 ≤ 2047)) →
    ∃ t, exec (.draw x y n) s = .next t ∧
      (∀ r col, r < n → col < 8 →
        t.cell (((s.reg y).toNat + r) * 64 + (s.reg x).toNat + col) =
          (s.cell (((s.reg y).toNat + r) * 64 + (s.reg x).toNat + col) ^^
            (s.readByte (s.i.toNat + r)).getLsbD (7 - col))) ∧
      (t.reg vf = 0 ∨ t.reg vf = 1) ∧
      (t.reg vf = 1 ↔ ∃ r col, r < n ∧ col < 8 ∧
        s.cell (((s.reg y).toNat + r) * 64 + (s.reg x).toNat + col) = true ∧
        (s.readByte (s.i.toNat + r)).getLsbD (7 - col) = true) ∧
      t.draw = true ∧ t.pc = s.pc + 2 ∧
      KeepsAllBut (fun c => c = .pc ∨ c = .reg vf ∨ c = .redraw ∨
        InRectangle (s.reg x) (s.reg y) n c) s t

/-- R163: two draws in succession with the same column, row, count, `I` and sprite bytes restore every cell,
and the second's VF is 1 exactly when the first turned a cell on (derived in the spec from R161; decisions
D9 to D12; log entry 13). The second may name other registers of the same values, so that VF as a
coordinate is no exception. -/
def Obligations.DrawTwiceRestoresTheScreen : Prop :=
  ∀ (x y x' y' : Reg) (n : Nat) (s t : State), faultOf (.draw x y n) s = none →
    exec (.draw x y n) s = .next t → t.reg x' = s.reg x → t.reg y' = s.reg y →
    ∃ u, exec (.draw x' y' n) t = .next u ∧ (∀ c, u.cell c = s.cell c) ∧
      (t.reg vf = 0 ∨ t.reg vf = 1) ∧ (u.reg vf = 0 ∨ u.reg vf = 1) ∧
      (u.reg vf = 1 ↔ ∃ c, s.cell c = false ∧ t.cell c = true) ∧
      KeepsAllBut (fun c => c = .pc ∨ c = .reg vf ∨ c = .redraw) s u

/-! ### Keys and timers (44_keys_timers.md) -/

/-- R170, R171: the skips on the key that `V[x]` names, where it names one (decision D8; log entry 14). -/
def Obligations.KeySkipsTestTheKeyNamed : Prop :=
  ∀ (x : Reg) (k : KeyCode) (s : State), (s.reg x).toNat = k.val →
    (∃ t, exec (.skipKeyPressed x) s = .next t ∧
      t.pc = (if s.pressed k = true then s.pc + 4 else s.pc + 2) ∧ KeepsAllBut (fun c => c = .pc) s t) ∧
    (∃ t, exec (.skipKeyNotPressed x) s = .next t ∧
      t.pc = (if s.pressed k = true then s.pc + 2 else s.pc + 4) ∧ KeepsAllBut (fun c => c = .pc) s t)

/-- R173: with a key pressed `wait-key` takes the lowest code; with none it completes with nothing written
(the strategy is decision D14; log entry 17). -/
def Obligations.WaitKeyTakesTheLowestKey : Prop :=
  ∀ (x : Reg) (s : State),
    ((∀ k, s.pressed k = false) → exec (.waitKey x) s = .next s) ∧
    (∀ k : KeyCode, s.pressed k = true → (∀ j, j < k → s.pressed j = false) →
      ∃ t, exec (.waitKey x) s = .next t ∧ (t.reg x).toNat = k.val ∧ t.pc = s.pc + 2 ∧
        KeepsAllBut (fun c => c = .pc ∨ c = .reg x) s t)

/-- R173, R213: a step that waits for a key changes the timers and nothing else (decision D14; log
entry 17). -/
def Obligations.WaitingStepOnlyDecaysTheTimers : Prop :=
  ∀ (x : Reg) (s : State), Running s → FetchesInstr s (.waitKey x) → (∀ k, s.pressed k = false) →
    ∃ t, step s = .next t ∧ TimersDecayed s t

/-- R172, R174, R175: the moves from and to the timers, before the step's decay. -/
def Obligations.TimerMoves : Prop :=
  ∀ (x : Reg) (s : State),
    (∃ t, exec (.getDelay x) s = .next t ∧ t.reg x = s.dt ∧ t.pc = s.pc + 2 ∧
      KeepsAllBut (fun c => c = .pc ∨ c = .reg x) s t) ∧
    (∃ t, exec (.setDelay x) s = .next t ∧ t.dt = s.reg x ∧ t.pc = s.pc + 2 ∧
      KeepsAllBut (fun c => c = .pc ∨ c = .delayTimer) s t) ∧
    (∃ t, exec (.setSound x) s = .next t ∧ t.st = s.reg x ∧ t.pc = s.pc + 2 ∧
      KeepsAllBut (fun c => c = .pc ∨ c = .soundTimer) s t)

/-- R174, R175, R246 (derived in the spec from R60 and R213): after the step that sets a timer to `v` it
holds `v - 1`, or 0; and `get-delay` reads the timer before its own step's decay (log entry 25). -/
def Obligations.SetTimersAreOneLessAfterTheStep : Prop :=
  ∀ (x : Reg) (s : State), Running s →
    (FetchesInstr s (.setDelay x) → ∃ t, step s = .next t ∧ t.dt.toNat = (s.reg x).toNat - 1) ∧
    (FetchesInstr s (.setSound x) → ∃ t, step s = .next t ∧ t.st.toNat = (s.reg x).toNat - 1) ∧
    (FetchesInstr s (.getDelay x) →
      ∃ t, step s = .next t ∧ t.reg x = s.dt ∧ t.dt.toNat = s.dt.toNat - 1)

/-- R250 (b): from a jump to its own address on, every step leaves all but the timers, which decay, and
spins again (decision D35; log entry 26). -/
def Obligations.SpinningOnlyDecaysTheTimers : Prop :=
  ∀ s : State, Spinning s → ∃ t, step s = .next t ∧ TimersDecayed s t ∧ Spinning t
end

