-- ==== Sys2Proof/Laws/Encoding.lean ====
section
/-! SUPPORT. The fields of an opcode as arithmetic, and the fields of a word built from its fields. -/

namespace Sys2Proof

/-! ### Each field as arithmetic (R63) -/

theorem fieldFam_eq (op : Word) : fieldFam op = op.toNat / 4096 := by
  have := op.isLt
  simp only [fieldFam, BitVec.extractLsb'_toNat, Nat.shiftRight_eq_div_pow]
  omega

theorem fieldX_val (op : Word) : (fieldX op).val = op.toNat / 256 % 16 := by
  simp [fieldX, Nat.shiftRight_eq_div_pow]

theorem fieldY_val (op : Word) : (fieldY op).val = op.toNat / 16 % 16 := by
  simp [fieldY, Nat.shiftRight_eq_div_pow]

theorem fieldN_eq (op : Word) : fieldN op = op.toNat % 16 := by simp [fieldN]

theorem fieldKK_toNat (op : Word) : (fieldKK op).toNat = op.toNat % 256 := by simp [fieldKK]

theorem fieldNNN_toNat (op : Word) : (fieldNNN op).toNat = op.toNat % 4096 := by simp [fieldNNN]

/-! ### Words from their fields, by format (R64) -/

/-- Concatenation as arithmetic. -/
theorem toNat_append_eq {m n : Nat} (a : BitVec m) (b : BitVec n) :
    (a ++ b).toNat = a.toNat * 2 ^ n + b.toNat := by
  rw [BitVec.toNat_append, Nat.shiftLeft_eq, Nat.mul_comm, Nat.two_pow_add_eq_or_of_lt b.isLt]

theorem regBits_toNat (x : Reg) : (regBits x).toNat = x.val := rfl

/-- Format `NNN`. -/
theorem toNat_nnn (f : BitVec 4) (a : Addr12) : (f ++ a : Word).toNat = f.toNat * 4096 + a.toNat :=
  toNat_append_eq f a

/-- Formats `XKK` and `XSS`. -/
theorem toNat_xkk (f : BitVec 4) (x : Reg) (kk : Byte) :
    (f ++ regBits x ++ kk : Word).toNat = f.toNat * 4096 + x.val * 256 + kk.toNat := by
  refine (toNat_append_eq (f ++ regBits x) kk).trans ?_
  rw [toNat_append_eq, regBits_toNat]
  omega

/-- Formats `XYS` and `XYN`. -/
theorem toNat_xyn (f : BitVec 4) (x y : Reg) (n : BitVec 4) :
    (f ++ regBits x ++ regBits y ++ n : Word).toNat =
      f.toNat * 4096 + x.val * 256 + y.val * 16 + n.toNat := by
  refine (toNat_append_eq (f ++ regBits x ++ regBits y) n).trans ?_
  rw [toNat_append_eq, toNat_append_eq, regBits_toNat, regBits_toNat]
  omega

@[simp] theorem fieldFam_nnn (f : BitVec 4) (a : Addr12) : fieldFam (f ++ a) = f.toNat := by
  have := a.isLt
  rw [fieldFam_eq, toNat_nnn]
  omega

@[simp] theorem fieldNNN_nnn (f : BitVec 4) (a : Addr12) : fieldNNN (f ++ a) = a := by
  have := a.isLt
  apply BitVec.eq_of_toNat_eq
  rw [fieldNNN_toNat, toNat_nnn]
  omega

@[simp] theorem fieldFam_xkk (f : BitVec 4) (x : Reg) (kk : Byte) :
    fieldFam (f ++ regBits x ++ kk) = f.toNat := by
  have := kk.isLt
  rw [fieldFam_eq, toNat_xkk]
  omega

@[simp] theorem fieldX_xkk (f : BitVec 4) (x : Reg) (kk : Byte) :
    fieldX (f ++ regBits x ++ kk) = x := by
  have := kk.isLt
  apply Fin.ext
  rw [fieldX_val, toNat_xkk]
  omega

@[simp] theorem fieldKK_xkk (f : BitVec 4) (x : Reg) (kk : Byte) :
    fieldKK (f ++ regBits x ++ kk) = kk := by
  have := kk.isLt
  apply BitVec.eq_of_toNat_eq
  rw [fieldKK_toNat, toNat_xkk]
  omega

@[simp] theorem fieldFam_xyn (f : BitVec 4) (x y : Reg) (n : BitVec 4) :
    fieldFam (f ++ regBits x ++ regBits y ++ n) = f.toNat := by
  have := n.isLt
  rw [fieldFam_eq, toNat_xyn]
  omega

@[simp] theorem fieldX_xyn (f : BitVec 4) (x y : Reg) (n : BitVec 4) :
    fieldX (f ++ regBits x ++ regBits y ++ n) = x := by
  have := n.isLt
  apply Fin.ext
  rw [fieldX_val, toNat_xyn]
  omega

@[simp] theorem fieldY_xyn (f : BitVec 4) (x y : Reg) (n : BitVec 4) :
    fieldY (f ++ regBits x ++ regBits y ++ n) = y := by
  have := n.isLt
  apply Fin.ext
  rw [fieldY_val, toNat_xyn]
  omega

@[simp] theorem fieldN_xyn (f : BitVec 4) (x y : Reg) (n : BitVec 4) :
    fieldN (f ++ regBits x ++ regBits y ++ n) = n.toNat := by
  have := n.isLt
  rw [fieldN_eq, toNat_xyn]
  omega

end Sys2Proof
end

