-- ==== Sys2Proof/Laws/State.lean ====
section
/-! SUPPORT. One lemma per field and update of the state, each true by definition, so that no proof unfolds
a record update; then the accessors over the updates that do not touch them. -/

namespace Sys2Proof.Machine

variable (s : State)

/-! ### The addressing mode and the cells of a sprite, as arithmetic -/

@[simp] theorem State.indexAddr_eq (k : Nat) : s.indexAddr k = s.i.toNat + k := rfl
@[simp] theorem cellIndex_eq (vx vy : Byte) (r c : Nat) :
    cellIndex vx vy r c = (vy.toNat + r) * 64 + (vx.toNat + c) := rfl
@[simp] theorem lastCell_eq (vx vy : Byte) (n : Nat) :
    lastCell vx vy n = (vy.toNat + (n - 1)) * 64 + (vx.toNat + 7) := rfl

/-! ### setReg -/

@[simp] theorem State.setReg_v (x : Reg) (b : Byte) : (s.setReg x b).v = s.v.set x b := rfl
@[simp] theorem State.setReg_i (x : Reg) (b : Byte) : (s.setReg x b).i = s.i := rfl
@[simp] theorem State.setReg_pc (x : Reg) (b : Byte) : (s.setReg x b).pc = s.pc := rfl
@[simp] theorem State.setReg_sp (x : Reg) (b : Byte) : (s.setReg x b).sp = s.sp := rfl
@[simp] theorem State.setReg_stack (x : Reg) (b : Byte) : (s.setReg x b).stack = s.stack := rfl
@[simp] theorem State.setReg_dt (x : Reg) (b : Byte) : (s.setReg x b).dt = s.dt := rfl
@[simp] theorem State.setReg_st (x : Reg) (b : Byte) : (s.setReg x b).st = s.st := rfl
@[simp] theorem State.setReg_mem (x : Reg) (b : Byte) : (s.setReg x b).mem = s.mem := rfl
@[simp] theorem State.setReg_fb (x : Reg) (b : Byte) : (s.setReg x b).fb = s.fb := rfl
@[simp] theorem State.setReg_key (x : Reg) (b : Byte) : (s.setReg x b).key = s.key := rfl
@[simp] theorem State.setReg_draw (x : Reg) (b : Byte) : (s.setReg x b).draw = s.draw := rfl
@[simp] theorem State.setReg_fault (x : Reg) (b : Byte) : (s.setReg x b).fault = s.fault := rfl
@[simp] theorem State.setReg_font (x : Reg) (b : Byte) : (s.setReg x b).font = s.font := rfl
@[simp] theorem State.setReg_randIndex (x : Reg) (b : Byte) : (s.setReg x b).randIndex = s.randIndex := rfl
@[simp] theorem State.setReg_cell (x : Reg) (b : Byte) (c' : Nat) : (s.setReg x b).cell c' = s.cell c' := rfl
@[simp] theorem State.setReg_pressed (x : Reg) (b : Byte) (k' : KeyCode) : (s.setReg x b).pressed k' = s.pressed k' := rfl
@[simp] theorem State.setReg_readByte (x : Reg) (b : Byte) (a' : Nat) :
    (s.setReg x b).readByte a' = s.readByte a' := rfl

/-! ### setI -/

@[simp] theorem State.setI_v (w : Word) : (s.setI w).v = s.v := rfl
@[simp] theorem State.setI_i (w : Word) : (s.setI w).i = w := rfl
@[simp] theorem State.setI_pc (w : Word) : (s.setI w).pc = s.pc := rfl
@[simp] theorem State.setI_sp (w : Word) : (s.setI w).sp = s.sp := rfl
@[simp] theorem State.setI_stack (w : Word) : (s.setI w).stack = s.stack := rfl
@[simp] theorem State.setI_dt (w : Word) : (s.setI w).dt = s.dt := rfl
@[simp] theorem State.setI_st (w : Word) : (s.setI w).st = s.st := rfl
@[simp] theorem State.setI_mem (w : Word) : (s.setI w).mem = s.mem := rfl
@[simp] theorem State.setI_fb (w : Word) : (s.setI w).fb = s.fb := rfl
@[simp] theorem State.setI_key (w : Word) : (s.setI w).key = s.key := rfl
@[simp] theorem State.setI_draw (w : Word) : (s.setI w).draw = s.draw := rfl
@[simp] theorem State.setI_fault (w : Word) : (s.setI w).fault = s.fault := rfl
@[simp] theorem State.setI_font (w : Word) : (s.setI w).font = s.font := rfl
@[simp] theorem State.setI_randIndex (w : Word) : (s.setI w).randIndex = s.randIndex := rfl
@[simp] theorem State.setI_reg (w : Word) (r : Reg) : (s.setI w).reg r = s.reg r := rfl
@[simp] theorem State.setI_cell (w : Word) (c' : Nat) : (s.setI w).cell c' = s.cell c' := rfl
@[simp] theorem State.setI_pressed (w : Word) (k' : KeyCode) : (s.setI w).pressed k' = s.pressed k' := rfl
@[simp] theorem State.setI_readByte (w : Word) (a' : Nat) :
    (s.setI w).readByte a' = s.readByte a' := rfl

/-! ### setPc -/

@[simp] theorem State.setPc_v (w : Word) : (s.setPc w).v = s.v := rfl
@[simp] theorem State.setPc_i (w : Word) : (s.setPc w).i = s.i := rfl
@[simp] theorem State.setPc_pc (w : Word) : (s.setPc w).pc = w := rfl
@[simp] theorem State.setPc_sp (w : Word) : (s.setPc w).sp = s.sp := rfl
@[simp] theorem State.setPc_stack (w : Word) : (s.setPc w).stack = s.stack := rfl
@[simp] theorem State.setPc_dt (w : Word) : (s.setPc w).dt = s.dt := rfl
@[simp] theorem State.setPc_st (w : Word) : (s.setPc w).st = s.st := rfl
@[simp] theorem State.setPc_mem (w : Word) : (s.setPc w).mem = s.mem := rfl
@[simp] theorem State.setPc_fb (w : Word) : (s.setPc w).fb = s.fb := rfl
@[simp] theorem State.setPc_key (w : Word) : (s.setPc w).key = s.key := rfl
@[simp] theorem State.setPc_draw (w : Word) : (s.setPc w).draw = s.draw := rfl
@[simp] theorem State.setPc_fault (w : Word) : (s.setPc w).fault = s.fault := rfl
@[simp] theorem State.setPc_font (w : Word) : (s.setPc w).font = s.font := rfl
@[simp] theorem State.setPc_randIndex (w : Word) : (s.setPc w).randIndex = s.randIndex := rfl
@[simp] theorem State.setPc_reg (w : Word) (r : Reg) : (s.setPc w).reg r = s.reg r := rfl
@[simp] theorem State.setPc_cell (w : Word) (c' : Nat) : (s.setPc w).cell c' = s.cell c' := rfl
@[simp] theorem State.setPc_pressed (w : Word) (k' : KeyCode) : (s.setPc w).pressed k' = s.pressed k' := rfl
@[simp] theorem State.setPc_readByte (w : Word) (a' : Nat) :
    (s.setPc w).readByte a' = s.readByte a' := rfl

/-! ### advance -/

@[simp] theorem State.advance_v : (s.advance).v = s.v := rfl
@[simp] theorem State.advance_i : (s.advance).i = s.i := rfl
@[simp] theorem State.advance_pc : (s.advance).pc = s.pc + 2 := rfl
@[simp] theorem State.advance_sp : (s.advance).sp = s.sp := rfl
@[simp] theorem State.advance_stack : (s.advance).stack = s.stack := rfl
@[simp] theorem State.advance_dt : (s.advance).dt = s.dt := rfl
@[simp] theorem State.advance_st : (s.advance).st = s.st := rfl
@[simp] theorem State.advance_mem : (s.advance).mem = s.mem := rfl
@[simp] theorem State.advance_fb : (s.advance).fb = s.fb := rfl
@[simp] theorem State.advance_key : (s.advance).key = s.key := rfl
@[simp] theorem State.advance_draw : (s.advance).draw = s.draw := rfl
@[simp] theorem State.advance_fault : (s.advance).fault = s.fault := rfl
@[simp] theorem State.advance_font : (s.advance).font = s.font := rfl
@[simp] theorem State.advance_randIndex : (s.advance).randIndex = s.randIndex := rfl
@[simp] theorem State.advance_reg (r : Reg) : (s.advance).reg r = s.reg r := rfl
@[simp] theorem State.advance_cell (c' : Nat) : (s.advance).cell c' = s.cell c' := rfl
@[simp] theorem State.advance_pressed (k' : KeyCode) : (s.advance).pressed k' = s.pressed k' := rfl
@[simp] theorem State.advance_readByte (a' : Nat) :
    (s.advance).readByte a' = s.readByte a' := rfl

/-! ### skipIf -/

@[simp] theorem State.skipIf_v (c : Bool) : (s.skipIf c).v = s.v := rfl
@[simp] theorem State.skipIf_i (c : Bool) : (s.skipIf c).i = s.i := rfl
@[simp] theorem State.skipIf_pc (c : Bool) : (s.skipIf c).pc = s.pc + (if c then 4 else 2) := rfl
@[simp] theorem State.skipIf_sp (c : Bool) : (s.skipIf c).sp = s.sp := rfl
@[simp] theorem State.skipIf_stack (c : Bool) : (s.skipIf c).stack = s.stack := rfl
@[simp] theorem State.skipIf_dt (c : Bool) : (s.skipIf c).dt = s.dt := rfl
@[simp] theorem State.skipIf_st (c : Bool) : (s.skipIf c).st = s.st := rfl
@[simp] theorem State.skipIf_mem (c : Bool) : (s.skipIf c).mem = s.mem := rfl
@[simp] theorem State.skipIf_fb (c : Bool) : (s.skipIf c).fb = s.fb := rfl
@[simp] theorem State.skipIf_key (c : Bool) : (s.skipIf c).key = s.key := rfl
@[simp] theorem State.skipIf_draw (c : Bool) : (s.skipIf c).draw = s.draw := rfl
@[simp] theorem State.skipIf_fault (c : Bool) : (s.skipIf c).fault = s.fault := rfl
@[simp] theorem State.skipIf_font (c : Bool) : (s.skipIf c).font = s.font := rfl
@[simp] theorem State.skipIf_randIndex (c : Bool) : (s.skipIf c).randIndex = s.randIndex := rfl
@[simp] theorem State.skipIf_reg (c : Bool) (r : Reg) : (s.skipIf c).reg r = s.reg r := rfl
@[simp] theorem State.skipIf_cell (c : Bool) (c' : Nat) : (s.skipIf c).cell c' = s.cell c' := rfl
@[simp] theorem State.skipIf_pressed (c : Bool) (k' : KeyCode) : (s.skipIf c).pressed k' = s.pressed k' := rfl
@[simp] theorem State.skipIf_readByte (c : Bool) (a' : Nat) :
    (s.skipIf c).readByte a' = s.readByte a' := rfl

/-! ### setDt -/

@[simp] theorem State.setDt_v (b : Byte) : (s.setDt b).v = s.v := rfl
@[simp] theorem State.setDt_i (b : Byte) : (s.setDt b).i = s.i := rfl
@[simp] theorem State.setDt_pc (b : Byte) : (s.setDt b).pc = s.pc := rfl
@[simp] theorem State.setDt_sp (b : Byte) : (s.setDt b).sp = s.sp := rfl
@[simp] theorem State.setDt_stack (b : Byte) : (s.setDt b).stack = s.stack := rfl
@[simp] theorem State.setDt_dt (b : Byte) : (s.setDt b).dt = b := rfl
@[simp] theorem State.setDt_st (b : Byte) : (s.setDt b).st = s.st := rfl
@[simp] theorem State.setDt_mem (b : Byte) : (s.setDt b).mem = s.mem := rfl
@[simp] theorem State.setDt_fb (b : Byte) : (s.setDt b).fb = s.fb := rfl
@[simp] theorem State.setDt_key (b : Byte) : (s.setDt b).key = s.key := rfl
@[simp] theorem State.setDt_draw (b : Byte) : (s.setDt b).draw = s.draw := rfl
@[simp] theorem State.setDt_fault (b : Byte) : (s.setDt b).fault = s.fault := rfl
@[simp] theorem State.setDt_font (b : Byte) : (s.setDt b).font = s.font := rfl
@[simp] theorem State.setDt_randIndex (b : Byte) : (s.setDt b).randIndex = s.randIndex := rfl
@[simp] theorem State.setDt_reg (b : Byte) (r : Reg) : (s.setDt b).reg r = s.reg r := rfl
@[simp] theorem State.setDt_cell (b : Byte) (c' : Nat) : (s.setDt b).cell c' = s.cell c' := rfl
@[simp] theorem State.setDt_pressed (b : Byte) (k' : KeyCode) : (s.setDt b).pressed k' = s.pressed k' := rfl
@[simp] theorem State.setDt_readByte (b : Byte) (a' : Nat) :
    (s.setDt b).readByte a' = s.readByte a' := rfl

/-! ### setSt -/

@[simp] theorem State.setSt_v (b : Byte) : (s.setSt b).v = s.v := rfl
@[simp] theorem State.setSt_i (b : Byte) : (s.setSt b).i = s.i := rfl
@[simp] theorem State.setSt_pc (b : Byte) : (s.setSt b).pc = s.pc := rfl
@[simp] theorem State.setSt_sp (b : Byte) : (s.setSt b).sp = s.sp := rfl
@[simp] theorem State.setSt_stack (b : Byte) : (s.setSt b).stack = s.stack := rfl
@[simp] theorem State.setSt_dt (b : Byte) : (s.setSt b).dt = s.dt := rfl
@[simp] theorem State.setSt_st (b : Byte) : (s.setSt b).st = b := rfl
@[simp] theorem State.setSt_mem (b : Byte) : (s.setSt b).mem = s.mem := rfl
@[simp] theorem State.setSt_fb (b : Byte) : (s.setSt b).fb = s.fb := rfl
@[simp] theorem State.setSt_key (b : Byte) : (s.setSt b).key = s.key := rfl
@[simp] theorem State.setSt_draw (b : Byte) : (s.setSt b).draw = s.draw := rfl
@[simp] theorem State.setSt_fault (b : Byte) : (s.setSt b).fault = s.fault := rfl
@[simp] theorem State.setSt_font (b : Byte) : (s.setSt b).font = s.font := rfl
@[simp] theorem State.setSt_randIndex (b : Byte) : (s.setSt b).randIndex = s.randIndex := rfl
@[simp] theorem State.setSt_reg (b : Byte) (r : Reg) : (s.setSt b).reg r = s.reg r := rfl
@[simp] theorem State.setSt_cell (b : Byte) (c' : Nat) : (s.setSt b).cell c' = s.cell c' := rfl
@[simp] theorem State.setSt_pressed (b : Byte) (k' : KeyCode) : (s.setSt b).pressed k' = s.pressed k' := rfl
@[simp] theorem State.setSt_readByte (b : Byte) (a' : Nat) :
    (s.setSt b).readByte a' = s.readByte a' := rfl

/-! ### present -/

@[simp] theorem State.present_v (fb : Vector (BitVec 64) 32) : (s.present fb).v = s.v := rfl
@[simp] theorem State.present_i (fb : Vector (BitVec 64) 32) : (s.present fb).i = s.i := rfl
@[simp] theorem State.present_pc (fb : Vector (BitVec 64) 32) : (s.present fb).pc = s.pc := rfl
@[simp] theorem State.present_sp (fb : Vector (BitVec 64) 32) : (s.present fb).sp = s.sp := rfl
@[simp] theorem State.present_stack (fb : Vector (BitVec 64) 32) : (s.present fb).stack = s.stack := rfl
@[simp] theorem State.present_dt (fb : Vector (BitVec 64) 32) : (s.present fb).dt = s.dt := rfl
@[simp] theorem State.present_st (fb : Vector (BitVec 64) 32) : (s.present fb).st = s.st := rfl
@[simp] theorem State.present_mem (fb : Vector (BitVec 64) 32) : (s.present fb).mem = s.mem := rfl
@[simp] theorem State.present_fb (fb : Vector (BitVec 64) 32) : (s.present fb).fb = fb := rfl
@[simp] theorem State.present_key (fb : Vector (BitVec 64) 32) : (s.present fb).key = s.key := rfl
@[simp] theorem State.present_draw (fb : Vector (BitVec 64) 32) : (s.present fb).draw = true := rfl
@[simp] theorem State.present_fault (fb : Vector (BitVec 64) 32) : (s.present fb).fault = s.fault := rfl
@[simp] theorem State.present_font (fb : Vector (BitVec 64) 32) : (s.present fb).font = s.font := rfl
@[simp] theorem State.present_randIndex (fb : Vector (BitVec 64) 32) : (s.present fb).randIndex = s.randIndex := rfl
@[simp] theorem State.present_reg (fb : Vector (BitVec 64) 32) (r : Reg) : (s.present fb).reg r = s.reg r := rfl
@[simp] theorem State.present_pressed (fb : Vector (BitVec 64) 32) (k' : KeyCode) : (s.present fb).pressed k' = s.pressed k' := rfl
@[simp] theorem State.present_readByte (fb : Vector (BitVec 64) 32) (a' : Nat) :
    (s.present fb).readByte a' = s.readByte a' := rfl

/-! ### writeByte -/

@[simp] theorem State.writeByte_v (a : Nat) (b : Byte) : (s.writeByte a b).v = s.v := rfl
@[simp] theorem State.writeByte_i (a : Nat) (b : Byte) : (s.writeByte a b).i = s.i := rfl
@[simp] theorem State.writeByte_pc (a : Nat) (b : Byte) : (s.writeByte a b).pc = s.pc := rfl
@[simp] theorem State.writeByte_sp (a : Nat) (b : Byte) : (s.writeByte a b).sp = s.sp := rfl
@[simp] theorem State.writeByte_stack (a : Nat) (b : Byte) : (s.writeByte a b).stack = s.stack := rfl
@[simp] theorem State.writeByte_dt (a : Nat) (b : Byte) : (s.writeByte a b).dt = s.dt := rfl
@[simp] theorem State.writeByte_st (a : Nat) (b : Byte) : (s.writeByte a b).st = s.st := rfl
@[simp] theorem State.writeByte_mem (a : Nat) (b : Byte) : (s.writeByte a b).mem = Memory.write s.font s.mem a b := rfl
@[simp] theorem State.writeByte_fb (a : Nat) (b : Byte) : (s.writeByte a b).fb = s.fb := rfl
@[simp] theorem State.writeByte_key (a : Nat) (b : Byte) : (s.writeByte a b).key = s.key := rfl
@[simp] theorem State.writeByte_draw (a : Nat) (b : Byte) : (s.writeByte a b).draw = s.draw := rfl
@[simp] theorem State.writeByte_fault (a : Nat) (b : Byte) : (s.writeByte a b).fault = s.fault := rfl
@[simp] theorem State.writeByte_font (a : Nat) (b : Byte) : (s.writeByte a b).font = s.font := rfl
@[simp] theorem State.writeByte_randIndex (a : Nat) (b : Byte) : (s.writeByte a b).randIndex = s.randIndex := rfl
@[simp] theorem State.writeByte_reg (a : Nat) (b : Byte) (r : Reg) : (s.writeByte a b).reg r = s.reg r := rfl
@[simp] theorem State.writeByte_cell (a : Nat) (b : Byte) (c' : Nat) : (s.writeByte a b).cell c' = s.cell c' := rfl
@[simp] theorem State.writeByte_pressed (a : Nat) (b : Byte) (k' : KeyCode) : (s.writeByte a b).pressed k' = s.pressed k' := rfl

/-! ### nextRandom -/

@[simp] theorem State.nextRandom_v : (s.nextRandom).v = s.v := rfl
@[simp] theorem State.nextRandom_i : (s.nextRandom).i = s.i := rfl
@[simp] theorem State.nextRandom_pc : (s.nextRandom).pc = s.pc := rfl
@[simp] theorem State.nextRandom_sp : (s.nextRandom).sp = s.sp := rfl
@[simp] theorem State.nextRandom_stack : (s.nextRandom).stack = s.stack := rfl
@[simp] theorem State.nextRandom_dt : (s.nextRandom).dt = s.dt := rfl
@[simp] theorem State.nextRandom_st : (s.nextRandom).st = s.st := rfl
@[simp] theorem State.nextRandom_mem : (s.nextRandom).mem = s.mem := rfl
@[simp] theorem State.nextRandom_fb : (s.nextRandom).fb = s.fb := rfl
@[simp] theorem State.nextRandom_key : (s.nextRandom).key = s.key := rfl
@[simp] theorem State.nextRandom_draw : (s.nextRandom).draw = s.draw := rfl
@[simp] theorem State.nextRandom_fault : (s.nextRandom).fault = s.fault := rfl
@[simp] theorem State.nextRandom_font : (s.nextRandom).font = s.font := rfl
@[simp] theorem State.nextRandom_randIndex : (s.nextRandom).randIndex = s.randIndex + 1 := rfl
@[simp] theorem State.nextRandom_reg (r : Reg) : (s.nextRandom).reg r = s.reg r := rfl
@[simp] theorem State.nextRandom_cell (c' : Nat) : (s.nextRandom).cell c' = s.cell c' := rfl
@[simp] theorem State.nextRandom_pressed (k' : KeyCode) : (s.nextRandom).pressed k' = s.pressed k' := rfl
@[simp] theorem State.nextRandom_readByte (a' : Nat) :
    (s.nextRandom).readByte a' = s.readByte a' := rfl

/-! ### timerDecay -/

@[simp] theorem State.timerDecay_v : (s.timerDecay).v = s.v := rfl
@[simp] theorem State.timerDecay_i : (s.timerDecay).i = s.i := rfl
@[simp] theorem State.timerDecay_pc : (s.timerDecay).pc = s.pc := rfl
@[simp] theorem State.timerDecay_sp : (s.timerDecay).sp = s.sp := rfl
@[simp] theorem State.timerDecay_stack : (s.timerDecay).stack = s.stack := rfl
@[simp] theorem State.timerDecay_dt : (s.timerDecay).dt = decay s.dt := rfl
@[simp] theorem State.timerDecay_st : (s.timerDecay).st = decay s.st := rfl
@[simp] theorem State.timerDecay_mem : (s.timerDecay).mem = s.mem := rfl
@[simp] theorem State.timerDecay_fb : (s.timerDecay).fb = s.fb := rfl
@[simp] theorem State.timerDecay_key : (s.timerDecay).key = s.key := rfl
@[simp] theorem State.timerDecay_draw : (s.timerDecay).draw = s.draw := rfl
@[simp] theorem State.timerDecay_fault : (s.timerDecay).fault = s.fault := rfl
@[simp] theorem State.timerDecay_font : (s.timerDecay).font = s.font := rfl
@[simp] theorem State.timerDecay_randIndex : (s.timerDecay).randIndex = s.randIndex := rfl
@[simp] theorem State.timerDecay_reg (r : Reg) : (s.timerDecay).reg r = s.reg r := rfl
@[simp] theorem State.timerDecay_cell (c' : Nat) : (s.timerDecay).cell c' = s.cell c' := rfl
@[simp] theorem State.timerDecay_pressed (k' : KeyCode) : (s.timerDecay).pressed k' = s.pressed k' := rfl
@[simp] theorem State.timerDecay_readByte (a' : Nat) :
    (s.timerDecay).readByte a' = s.readByte a' := rfl

/-! ### setKey -/

@[simp] theorem State.setKey_v (k : KeyCode) (b : Bool) : (s.setKey k b).v = s.v := rfl
@[simp] theorem State.setKey_i (k : KeyCode) (b : Bool) : (s.setKey k b).i = s.i := rfl
@[simp] theorem State.setKey_pc (k : KeyCode) (b : Bool) : (s.setKey k b).pc = s.pc := rfl
@[simp] theorem State.setKey_sp (k : KeyCode) (b : Bool) : (s.setKey k b).sp = s.sp := rfl
@[simp] theorem State.setKey_stack (k : KeyCode) (b : Bool) : (s.setKey k b).stack = s.stack := rfl
@[simp] theorem State.setKey_dt (k : KeyCode) (b : Bool) : (s.setKey k b).dt = s.dt := rfl
@[simp] theorem State.setKey_st (k : KeyCode) (b : Bool) : (s.setKey k b).st = s.st := rfl
@[simp] theorem State.setKey_mem (k : KeyCode) (b : Bool) : (s.setKey k b).mem = s.mem := rfl
@[simp] theorem State.setKey_fb (k : KeyCode) (b : Bool) : (s.setKey k b).fb = s.fb := rfl
@[simp] theorem State.setKey_key (k : KeyCode) (b : Bool) : (s.setKey k b).key = s.key.set k b := rfl
@[simp] theorem State.setKey_draw (k : KeyCode) (b : Bool) : (s.setKey k b).draw = s.draw := rfl
@[simp] theorem State.setKey_fault (k : KeyCode) (b : Bool) : (s.setKey k b).fault = s.fault := rfl
@[simp] theorem State.setKey_font (k : KeyCode) (b : Bool) : (s.setKey k b).font = s.font := rfl
@[simp] theorem State.setKey_randIndex (k : KeyCode) (b : Bool) : (s.setKey k b).randIndex = s.randIndex := rfl
@[simp] theorem State.setKey_reg (k : KeyCode) (b : Bool) (r : Reg) : (s.setKey k b).reg r = s.reg r := rfl
@[simp] theorem State.setKey_cell (k : KeyCode) (b : Bool) (c' : Nat) : (s.setKey k b).cell c' = s.cell c' := rfl
@[simp] theorem State.setKey_readByte (k : KeyCode) (b : Bool) (a' : Nat) :
    (s.setKey k b).readByte a' = s.readByte a' := rfl

/-! ### clearRedraw -/

@[simp] theorem State.clearRedraw_v : (s.clearRedraw).v = s.v := rfl
@[simp] theorem State.clearRedraw_i : (s.clearRedraw).i = s.i := rfl
@[simp] theorem State.clearRedraw_pc : (s.clearRedraw).pc = s.pc := rfl
@[simp] theorem State.clearRedraw_sp : (s.clearRedraw).sp = s.sp := rfl
@[simp] theorem State.clearRedraw_stack : (s.clearRedraw).stack = s.stack := rfl
@[simp] theorem State.clearRedraw_dt : (s.clearRedraw).dt = s.dt := rfl
@[simp] theorem State.clearRedraw_st : (s.clearRedraw).st = s.st := rfl
@[simp] theorem State.clearRedraw_mem : (s.clearRedraw).mem = s.mem := rfl
@[simp] theorem State.clearRedraw_fb : (s.clearRedraw).fb = s.fb := rfl
@[simp] theorem State.clearRedraw_key : (s.clearRedraw).key = s.key := rfl
@[simp] theorem State.clearRedraw_draw : (s.clearRedraw).draw = false := rfl
@[simp] theorem State.clearRedraw_fault : (s.clearRedraw).fault = s.fault := rfl
@[simp] theorem State.clearRedraw_font : (s.clearRedraw).font = s.font := rfl
@[simp] theorem State.clearRedraw_randIndex : (s.clearRedraw).randIndex = s.randIndex := rfl
@[simp] theorem State.clearRedraw_reg (r : Reg) : (s.clearRedraw).reg r = s.reg r := rfl
@[simp] theorem State.clearRedraw_cell (c' : Nat) : (s.clearRedraw).cell c' = s.cell c' := rfl
@[simp] theorem State.clearRedraw_pressed (k' : KeyCode) : (s.clearRedraw).pressed k' = s.pressed k' := rfl
@[simp] theorem State.clearRedraw_readByte (a' : Nat) :
    (s.clearRedraw).readByte a' = s.readByte a' := rfl

end Sys2Proof.Machine
end

