-- ==== Sys2Proof/Laws/Memory.lean ====
section
/-! SUPPORT. The laws of memory: read after write, the canonical form and that every operation keeps it. -/

namespace Sys2Proof.Machine

/-! ### The list of cells -/

theorem Memory.risingFrom_weaken {lo lo' : Nat} {m : List Host.Cell} (h : Memory.risingFrom lo m = true)
    (hle : lo' ≤ lo) : Memory.risingFrom lo' m = true := by
  cases m with
  | nil => rfl
  | cons c rest =>
    simp only [Memory.risingFrom, Bool.and_eq_true, decide_eq_true_eq] at h ⊢
    exact ⟨by omega, h.2⟩

/-- A list that rises from above `a` does not list `a`. -/
theorem Memory.find_eq_none_of_rising {lo a : Nat} {m : List Host.Cell}
    (h : Memory.risingFrom lo m = true) (ha : a < lo) : Memory.find m a = none := by
  induction m generalizing lo with
  | nil => rfl
  | cons c rest ih =>
    simp only [Memory.risingFrom, Bool.and_eq_true, decide_eq_true_eq] at h
    have hne : a ≠ c.1 := by omega
    simp only [Memory.find, hne, if_false]
    exact ih h.2 (by omega)

/-- The write leaves what is listed for every other address. -/
theorem Memory.find_put_ne {d : Byte} {a a' : Nat} {b : Byte} (h : a' ≠ a) (m : List Host.Cell) :
    Memory.find (Memory.put d a b m) a' = Memory.find m a' := by
  induction m with
  | nil => simp only [Memory.put]; split <;> simp [Memory.find, h]
  | cons c rest ih =>
    obtain ⟨c1, c2⟩ := c
    simp only [Memory.put]
    split
    · split <;> simp [Memory.find, h]
    · split
      · rename_i hc
        subst hc
        split <;> simp [Memory.find, h]
      · simp only [Memory.find, ih]

/-- The write lists its byte, or nothing where the byte is what an unlisted address reads as. -/
theorem Memory.find_put_self {lo : Nat} {d : Byte} {a : Nat} {b : Byte} {m : List Host.Cell}
    (h : Memory.risingFrom lo m = true) :
    Memory.find (Memory.put d a b m) a = if b = d then none else some b := by
  induction m generalizing lo with
  | nil => simp only [Memory.put]; split <;> simp [Memory.find, *]
  | cons c rest ih =>
    obtain ⟨c1, c2⟩ := c
    simp only [Memory.risingFrom, Bool.and_eq_true, decide_eq_true_eq] at h
    simp only [Memory.put]
    split
    · rename_i hlt
      split
      · have hne : a ≠ c1 := by omega
        simp only [Memory.find, hne, if_false]
        exact Memory.find_eq_none_of_rising h.2 (by omega)
      · simp [Memory.find]
    · split
      · rename_i hc
        subst hc
        split
        · exact Memory.find_eq_none_of_rising h.2 (by omega)
        · simp [Memory.find]
      · rename_i hc
        simp only [Memory.find, hc, if_false]
        exact ih h.2

theorem Memory.risingFrom_put {lo : Nat} {d : Byte} {a : Nat} {b : Byte} {m : List Host.Cell}
    (h : Memory.risingFrom lo m = true) (hlo : lo ≤ a) :
    Memory.risingFrom lo (Memory.put d a b m) = true := by
  induction m generalizing lo with
  | nil => simp only [Memory.put]; split <;> simp [Memory.risingFrom, hlo]
  | cons c rest ih =>
    obtain ⟨c1, c2⟩ := c
    simp only [Memory.risingFrom, Bool.and_eq_true, decide_eq_true_eq] at h
    simp only [Memory.put]
    split
    · split
      · simp [Memory.risingFrom, h]
      · simp only [Memory.risingFrom, Bool.and_eq_true, decide_eq_true_eq]
        exact ⟨hlo, by omega, h.2⟩
    · split
      · rename_i hc
        subst hc
        split
        · exact Memory.risingFrom_weaken h.2 (by omega)
        · simp [Memory.risingFrom, h]
      · simp only [Memory.risingFrom, Bool.and_eq_true, decide_eq_true_eq]
        exact ⟨h.1, ih h.2 (by omega)⟩

theorem Memory.mem_put {d : Byte} {a : Nat} {b : Byte} {m : List Host.Cell} {c : Host.Cell}
    (h : c ∈ Memory.put d a b m) : c ∈ m ∨ (c = (a, b) ∧ b ≠ d) := by
  induction m with
  | nil =>
    simp only [Memory.put] at h
    split at h <;> simp_all
  | cons c' rest ih =>
    obtain ⟨c1, c2⟩ := c'
    simp only [Memory.put] at h
    split at h
    · split at h <;> simp_all
      tauto
    · split at h
      · split at h <;> simp_all
        tauto
      · simp only [List.mem_cons] at h ⊢
        rcases h with h | h
        · exact Or.inl (Or.inl h)
        · rcases ih h with h | h
          · exact Or.inl (Or.inr h)
          · exact Or.inr h

/-! ### Read after write -/

theorem Memory.rising_of_wf {font : Vector Byte 80} {m : List Host.Cell} (h : Memory.wf font m = true) :
    Memory.risingFrom 0 m = true := by
  simp only [Memory.wf, Bool.and_eq_true] at h
  exact h.1

/-- A read after a write to the same address gives the byte written. -/
theorem Memory.read_write_self {font : Vector Byte 80} {m : List Host.Cell} (h : Memory.wf font m = true)
    (a : Nat) (b : Byte) : Memory.read font (Memory.write font m a b) a = b := by
  simp only [Memory.read, Memory.write, Memory.find_put_self (Memory.rising_of_wf h)]
  split <;> simp [*]

/-- A write leaves every other address alone. -/
theorem Memory.read_write_ne {a a' : Nat} (h : a' ≠ a) (font : Vector Byte 80) (m : List Host.Cell)
    (b : Byte) : Memory.read font (Memory.write font m a b) a' = Memory.read font m a' := by
  simp only [Memory.read, Memory.write, Memory.find_put_ne h]

/-- A write keeps the canonical form. -/
theorem Memory.wf_write {font : Vector Byte 80} {m : List Host.Cell} (h : Memory.wf font m = true) {a : Nat}
    (ha : a < 4096) (b : Byte) : Memory.wf font (Memory.write font m a b) = true := by
  simp only [Memory.wf, Memory.write, Bool.and_eq_true, List.all_eq_true] at h ⊢
  refine ⟨Memory.risingFrom_put h.1 (Nat.zero_le _), fun c hc => ?_⟩
  rcases Memory.mem_put hc with hm | ⟨rfl, hb⟩
  · exact h.2 c hm
  · simp [Config.memSize, ha, hb]

theorem Memory.wf_nil (font : Vector Byte 80) : Memory.wf font [] = true := rfl

/-! ### The same, over the state -/

theorem State.readByte_writeByte_self {s : State} (h : Memory.wf s.font s.mem = true) (a : Nat) (b : Byte) :
    (s.writeByte a b).readByte a = b := Memory.read_write_self h a b

@[simp] theorem State.readByte_writeByte_ne {a a' : Nat} (h : a' ≠ a) (s : State) (b : Byte) :
    (s.writeByte a b).readByte a' = s.readByte a' := Memory.read_write_ne h _ _ _

theorem State.wf_writeByte {s : State} (h : Memory.wf s.font s.mem = true) {a : Nat} (ha : a < 4096)
    (b : Byte) : Memory.wf (s.writeByte a b).font (s.writeByte a b).mem = true := Memory.wf_write h ha b

/-- Storing bytes writes memory and nothing else. -/
theorem State.writeBytes_eq (s : State) (a : Nat) (bs : List Byte) :
    s.writeBytes a bs = { s with mem := (s.writeBytes a bs).mem } := by
  induction bs generalizing s a with
  | nil => rfl
  | cons b rest ih =>
    simp only [State.writeBytes]
    rw [ih]
    rfl

@[simp] theorem State.writeBytes_v (s : State) (a : Nat) (bs : List Byte) :
    (s.writeBytes a bs).v = s.v := by rw [State.writeBytes_eq]
@[simp] theorem State.writeBytes_i (s : State) (a : Nat) (bs : List Byte) :
    (s.writeBytes a bs).i = s.i := by rw [State.writeBytes_eq]
@[simp] theorem State.writeBytes_pc (s : State) (a : Nat) (bs : List Byte) :
    (s.writeBytes a bs).pc = s.pc := by rw [State.writeBytes_eq]
@[simp] theorem State.writeBytes_sp (s : State) (a : Nat) (bs : List Byte) :
    (s.writeBytes a bs).sp = s.sp := by rw [State.writeBytes_eq]
@[simp] theorem State.writeBytes_stack (s : State) (a : Nat) (bs : List Byte) :
    (s.writeBytes a bs).stack = s.stack := by rw [State.writeBytes_eq]
@[simp] theorem State.writeBytes_dt (s : State) (a : Nat) (bs : List Byte) :
    (s.writeBytes a bs).dt = s.dt := by rw [State.writeBytes_eq]
@[simp] theorem State.writeBytes_st (s : State) (a : Nat) (bs : List Byte) :
    (s.writeBytes a bs).st = s.st := by rw [State.writeBytes_eq]
@[simp] theorem State.writeBytes_fb (s : State) (a : Nat) (bs : List Byte) :
    (s.writeBytes a bs).fb = s.fb := by rw [State.writeBytes_eq]
@[simp] theorem State.writeBytes_key (s : State) (a : Nat) (bs : List Byte) :
    (s.writeBytes a bs).key = s.key := by rw [State.writeBytes_eq]
@[simp] theorem State.writeBytes_draw (s : State) (a : Nat) (bs : List Byte) :
    (s.writeBytes a bs).draw = s.draw := by rw [State.writeBytes_eq]
@[simp] theorem State.writeBytes_fault (s : State) (a : Nat) (bs : List Byte) :
    (s.writeBytes a bs).fault = s.fault := by rw [State.writeBytes_eq]
@[simp] theorem State.writeBytes_font (s : State) (a : Nat) (bs : List Byte) :
    (s.writeBytes a bs).font = s.font := by rw [State.writeBytes_eq]
@[simp] theorem State.writeBytes_randIndex (s : State) (a : Nat) (bs : List Byte) :
    (s.writeBytes a bs).randIndex = s.randIndex := by rw [State.writeBytes_eq]
@[simp] theorem State.writeBytes_reg (s : State) (a : Nat) (bs : List Byte) (r : Reg) :
    (s.writeBytes a bs).reg r = s.reg r := by simp only [State.reg, State.writeBytes_v]
@[simp] theorem State.writeBytes_cell (s : State) (a : Nat) (bs : List Byte) (c : Nat) :
    (s.writeBytes a bs).cell c = s.cell c := by simp only [State.cell, State.writeBytes_fb]
@[simp] theorem State.writeBytes_pressed (s : State) (a : Nat) (bs : List Byte) (k : KeyCode) :
    (s.writeBytes a bs).pressed k = s.pressed k := by simp only [State.pressed, State.writeBytes_key]

/-- What is stored depends on memory alone. -/
theorem State.writeBytes_congr {s s' : State} (hm : s'.mem = s.mem) (hf : s'.font = s.font) (a : Nat)
    (bs : List Byte) : (s'.writeBytes a bs).mem = (s.writeBytes a bs).mem := by
  induction bs generalizing s s' a with
  | nil => exact hm
  | cons b rest ih => exact ih (by simp [hm, hf]) (by simpa using hf) _

/-- Storing bytes leaves every address outside them alone. -/
theorem State.readByte_writeBytes_outside {a' a : Nat} {bs : List Byte}
    (h : a' < a ∨ a + bs.length ≤ a') (s : State) : (s.writeBytes a bs).readByte a' = s.readByte a' := by
  induction bs generalizing s a with
  | nil => rfl
  | cons b rest ih =>
    simp only [List.length_cons] at h
    simp only [State.writeBytes]
    rw [ih (by omega), State.readByte_writeByte_ne (by omega)]

theorem State.wf_writeBytes {s : State} (h : Memory.wf s.font s.mem = true) {a : Nat} {bs : List Byte}
    (ha : a + bs.length ≤ 4096) :
    Memory.wf (s.writeBytes a bs).font (s.writeBytes a bs).mem = true := by
  induction bs generalizing s a with
  | nil => exact h
  | cons b rest ih =>
    simp only [List.length_cons] at ha
    exact ih (State.wf_writeByte h (by omega) b) (by omega)

/-- Each stored byte reads back. -/
theorem State.readByte_writeBytes_inside {s : State} (h : Memory.wf s.font s.mem = true) {a k : Nat}
    {bs : List Byte} (ha : a + bs.length ≤ 4096) (hk : k < bs.length) :
    (s.writeBytes a bs).readByte (a + k) = bs[k] := by
  induction bs generalizing s a k with
  | nil => exact absurd hk (Nat.not_lt_zero k)
  | cons b rest ih =>
    simp only [List.length_cons] at ha hk
    simp only [State.writeBytes]
    cases k with
    | zero =>
      rw [State.readByte_writeBytes_outside (Or.inl (by omega)), Nat.add_zero]
      exact State.readByte_writeByte_self h a b
    | succ k =>
      have := ih (State.wf_writeByte h (a := a) (by omega) b) (a := a + 1) (k := k) (by omega) (by omega)
      rw [show a + (k + 1) = a + 1 + k by omega, this]
      rfl

end Sys2Proof.Machine
end

