-- ==== Sys2Proof/Laws/Ops.lean ====
section
/-! SUPPORT. One lemma per shared operation: all that it can do. The meanings' proofs cite these. -/

namespace Sys2Proof.Machine

/-! ### Registers -/

/-- A register write: the register, and no other. -/
theorem State.reg_setReg (s : State) (x : Reg) (b : Byte) (r : Reg) :
    (s.setReg x b).reg r = if r = x then b else s.reg r := by
  by_cases h : r = x
  · subst h
    simp [State.reg]
  · have : x.val ≠ r.val := fun e => h (Fin.ext e.symm)
    simp [State.reg, h, this]

@[simp] theorem State.reg_setReg_self (s : State) (x : Reg) (b : Byte) : (s.setReg x b).reg x = b := by
  simp [State.reg_setReg]

theorem State.reg_setReg_ne {x r : Reg} (h : r ≠ x) (s : State) (b : Byte) :
    (s.setReg x b).reg r = s.reg r := by simp [State.reg_setReg, h]

/-- A result with its flag: VF holds the flag whatever the destination, the destination the result where
it is not VF, and no other register changes. -/
theorem State.reg_setWithFlag (s : State) (x : Reg) (b : Byte) (f : Bool) (r : Reg) :
    (s.setWithFlag x b f).reg r = if r = vf then flagByte f else if r = x then b else s.reg r := by
  simp only [State.setWithFlag, State.reg_setReg]

/-- A result with its flag writes registers only. -/
theorem State.setWithFlag_eq (s : State) (x : Reg) (b : Byte) (f : Bool) :
    s.setWithFlag x b f = { s with v := (s.setWithFlag x b f).v } := rfl

/-! ### The range V0 to Vx -/

theorem mem_regsUpTo (x k : Reg) : k ∈ regsUpTo x ↔ k ≤ x := by
  revert x k
  decide

theorem regsUpTo_nodup (x : Reg) : (regsUpTo x).Nodup := by
  revert x
  decide

theorem regsUpTo_length (x : Reg) : (regsUpTo x).length = x.val + 1 := by
  revert x
  decide

theorem regsUpTo_getElem (x : Reg) (k : Nat) (h : k < (regsUpTo x).length) :
    (regsUpTo x)[k].val = k := by
  have key : ∀ y : Reg, ∀ j : Fin 16, (hj : j.val < (regsUpTo y).length) →
      ((regsUpTo y)[j.val]).val = j.val := by decide
  have hk : k < 16 := by have := regsUpTo_length x; omega
  exact key x ⟨k, hk⟩ h

theorem State.regBytes_length (s : State) (x : Reg) : (s.regBytes x).length = x.val + 1 := by
  simp [State.regBytes, regsUpTo_length]

/-- Byte `k` of the range is `V[k]`. -/
theorem State.regBytes_getElem (s : State) (x r : Reg) (h : r.val < (s.regBytes x).length) :
    (s.regBytes x)[r.val] = s.reg r := by
  have hr : r.val < (regsUpTo x).length := by
    simpa [State.regBytes] using h
  have : (regsUpTo x)[r.val] = r := Fin.ext (regsUpTo_getElem x r.val hr)
  simp only [State.regBytes, List.getElem_map, this]

/-- Loading registers writes registers only. -/
theorem State.loadFrom_eq (s : State) (a : Nat) (ks : List Reg) :
    s.loadFrom a ks = { s with v := (s.loadFrom a ks).v } := by
  induction ks generalizing s with
  | nil => rfl
  | cons k rest ih =>
    simp only [State.loadFrom]
    rw [ih]
    rfl

theorem State.loadFrom_readByte (s : State) (a : Nat) (ks : List Reg) (a' : Nat) :
    (s.loadFrom a ks).readByte a' = s.readByte a' := by rw [State.loadFrom_eq]; rfl

/-- Loading registers: each one listed holds the byte at its offset, and no other changes. -/
theorem State.reg_loadFrom (s : State) (a : Nat) (ks : List Reg) (r : Reg) :
    (s.loadFrom a ks).reg r = if r ∈ ks then s.readByte (a + r.val) else s.reg r := by
  induction ks generalizing s with
  | nil => simp [State.loadFrom]
  | cons k rest ih =>
    simp only [State.loadFrom, ih, State.setReg_readByte, List.mem_cons, State.reg_setReg]
    by_cases h1 : r ∈ rest <;> by_cases h2 : r = k <;> simp [h1, h2]

/-- What is loaded depends on memory and the registers alone. -/
theorem State.loadFrom_congr {s s' : State} (hm : s'.mem = s.mem) (hf : s'.font = s.font)
    (hv : s'.v = s.v) (a : Nat) (ks : List Reg) : (s'.loadFrom a ks).v = (s.loadFrom a ks).v := by
  induction ks generalizing s s' with
  | nil => exact hv
  | cons k rest ih =>
    exact ih (by simpa using hm) (by simpa using hf) (by simp [hv, State.readByte, hm, hf])

/-! ### The stack -/

/-- A push that succeeds: there was room, the slot at the depth holds the value, the depth grew. -/
theorem State.push_eq_some {s t : State} {w : Word} (h : s.push w = some t) :
    ∃ hs : s.sp.val < 16, t = { s with stack := s.stack.set s.sp.val w, sp := ⟨s.sp.val + 1, by omega⟩ } := by
  unfold State.push at h
  split at h
  · rename_i hs
    exact ⟨hs, by simpa using h.symm⟩
  · cases h

theorem State.push_of_lt {s : State} (hs : s.sp.val < 16) (w : Word) :
    s.push w =
      some { s with stack := s.stack.set s.sp.val w, sp := ⟨s.sp.val + 1, by omega⟩ } := by
  simp [State.push, hs]

theorem State.push_eq_none {s : State} {w : Word} (h : s.push w = none) : s.sp.val = 16 := by
  unfold State.push at h
  split at h
  · cases h
  · omega

/-- A pop that succeeds: the stack was not empty, the value is the slot below the depth, the depth fell. -/
theorem State.pop_eq_some {s t : State} {w : Word} (h : s.pop = some (w, t)) :
    ∃ hs : 0 < s.sp.val, w = s.stack[s.sp.val - 1]'(by omega) ∧
      t = { s with sp := ⟨s.sp.val - 1, by omega⟩ } := by
  unfold State.pop at h
  split at h
  · rename_i hs
    simp only [Option.some.injEq, Prod.mk.injEq] at h
    exact ⟨hs, h.1.symm, h.2.symm⟩
  · cases h

theorem State.pop_of_pos {s : State} (hs : 0 < s.sp.val) :
    s.pop = some (s.stack[s.sp.val - 1]'(by omega), { s with sp := ⟨s.sp.val - 1, by omega⟩ }) := by
  simp [State.pop, hs]

theorem State.pop_eq_none {s : State} (h : s.pop = none) : s.sp.val = 0 := by
  unfold State.pop at h
  split at h
  · cases h
  · omega

/-! ### Keys -/

theorem keyCode?_eq_some {b : Byte} {k : KeyCode} (h : keyCode? b = some k) : k.val = b.toNat := by
  unfold keyCode? at h
  split at h
  · simp only [Option.some.injEq] at h
    rw [← h]
  · cases h

theorem keyCode?_eq_none {b : Byte} (h : keyCode? b = none) : 15 < b.toNat := by
  unfold keyCode? at h
  split at h
  · cases h
  · omega

theorem mem_allRegs (k : Reg) : k ∈ allRegs := by
  revert k
  decide

/-- No key is pressed. -/
theorem State.lowestPressed_eq_none (s : State) :
    s.lowestPressed = none ↔ ∀ k, s.pressed k = false := by
  simp [State.lowestPressed, mem_allRegs]

/-! ### Sprites -/

/-- The cells a row toggles. -/
theorem State.mem_rowCells (s : State) (vx vy : Byte) (r c : Nat) :
    c ∈ s.rowCells vx vy r ↔ ∃ col < 8, s.spriteBit r col = true ∧ cellIndex vx vy r col = c := by
  simp [State.rowCells, and_assoc]

/-- The cells a sprite toggles. -/
theorem State.mem_spriteCells (s : State) (vx vy : Byte) (n c : Nat) :
    c ∈ s.spriteCells vx vy n ↔
      ∃ r < n, ∃ col < 8, s.spriteBit r col = true ∧ cellIndex vx vy r col = c := by
  simp [State.spriteCells, State.mem_rowCells]

/-- Two places of a sprite are one cell only if they are the same place. -/
theorem cellIndex_inj {vx vy : Byte} {r r' c c' : Nat} (hc : c < 8) (hc' : c' < 8)
    (h : cellIndex vx vy r c = cellIndex vx vy r' c') : r = r' ∧ c = c' := by
  simp only [cellIndex] at h
  omega

theorem State.rowCells_nodup (s : State) (vx vy : Byte) (r : Nat) : (s.rowCells vx vy r).Nodup := by
  refine List.Nodup.map_on ?_ (List.nodup_range.filter _)
  intro a ha b hb h
  simp only [List.mem_filter, List.mem_range] at ha hb
  exact (cellIndex_inj ha.1 hb.1 h).2

/-- A sprite toggles no cell twice. -/
theorem State.spriteCells_nodup (s : State) (vx vy : Byte) (n : Nat) : (s.spriteCells vx vy n).Nodup := by
  refine List.nodup_flatMap.mpr ⟨fun r _ => s.rowCells_nodup vx vy r, ?_⟩
  refine List.Nodup.pairwise_of_forall_ne List.nodup_range ?_
  intro a _ b _ hab c hca hcb
  rw [State.mem_rowCells] at hca hcb
  obtain ⟨p, hp, _, hpc⟩ := hca
  obtain ⟨q, hq, _, hqc⟩ := hcb
  exact hab (cellIndex_inj hp hq (hpc.trans hqc.symm)).1

/-- Toggling a cell. -/
theorem Framebuffer.get_toggle (fb : Vector (BitVec 64) 32) (c i : Nat) :
    Framebuffer.get (Framebuffer.toggle fb c) i =
      (Framebuffer.get fb i ^^ (decide (i < 2048) && decide (i = c))) := by
  unfold Framebuffer.get Framebuffer.toggle
  by_cases hi : i / 64 < 32
  · have hi' : i < 2048 := by omega
    by_cases hc : c / 64 < 32
    · simp only [hi, hc, hi', dite_true, Vector.getElem_set]
      by_cases hr : c / 64 = i / 64
      · have hx : (c % 64 = i % 64) ↔ (i = c) := by omega
        have : (decide (c % 64 < 64) && decide (c % 64 = i % 64)) = decide (i = c) := by
          simp [hx, Nat.mod_lt]
        simp [hr, this]
      · have : i ≠ c := fun e => hr (by rw [e])
        simp [hr, this]
    · have : i ≠ c := fun e => hc (e ▸ hi)
      simp [hi, hc, this]
  · have hi' : ¬ i < 2048 := by omega
    simp [hi, hi']

/-- No cell of the blank framebuffer is set. -/
theorem Framebuffer.get_blank (c : Nat) : Framebuffer.get Framebuffer.blank c = false := by
  unfold Framebuffer.get Framebuffer.blank
  split <;> simp

/-- What the loop of `draw` leaves: every cell listed is toggled, no other; the flag tells whether one of
them was set. -/
theorem paint_spec {cells : List Nat} (hn : cells.Nodup) (fb : Vector (BitVec 64) 32) (hit : Bool) :
    (∀ i, Framebuffer.get (paint fb hit cells).1 i =
        (Framebuffer.get fb i ^^ (decide (i < 2048) && decide (i ∈ cells)))) ∧
      ((paint fb hit cells).2 = true ↔ hit = true ∨ ∃ c ∈ cells, Framebuffer.get fb c = true) := by
  induction cells generalizing fb hit with
  | nil => simp [paint]
  | cons c rest ih =>
    obtain ⟨hc, hr⟩ := List.nodup_cons.mp hn
    obtain ⟨h1, h2⟩ := ih hr (Framebuffer.toggle fb c) (hit || Framebuffer.get fb c)
    constructor
    · intro i
      simp only [paint, h1, Framebuffer.get_toggle, List.mem_cons]
      by_cases hi : i = c
      · subst hi
        simp [hc]
      · simp [hi]
    · simp only [paint, h2, Framebuffer.get_toggle, Bool.or_eq_true, List.mem_cons]
      constructor
      · rintro ((h | h) | ⟨d, hd, h⟩)
        · exact Or.inl h
        · exact Or.inr ⟨c, Or.inl rfl, h⟩
        · have : d ≠ c := fun e => hc (e ▸ hd)
          exact Or.inr ⟨d, Or.inr hd, by simpa [this] using h⟩
      · rintro (h | ⟨d, rfl | hd, h⟩)
        · exact Or.inl (Or.inl h)
        · exact Or.inl (Or.inr h)
        · have : d ≠ c := fun e => hc (e ▸ hd)
          exact Or.inr ⟨d, hd, by simpa [this] using h⟩

/-- The cells after a draw past its checks: those of the sprite's 1 bits are toggled. -/
theorem drawSprite_cell (x y : Reg) (n : Nat) (s : State) (c : Nat) :
    (drawSprite x y n s).cell c =
      (s.cell c ^^ (decide (c < 2048) && decide (c ∈ s.spriteCells (s.reg x) (s.reg y) n))) :=
  (paint_spec (s.spriteCells_nodup _ _ _) s.fb false).1 c

theorem flagByte_cases (b : Bool) : flagByte b = 0 ∨ flagByte b = 1 := by cases b <;> simp [flagByte]

theorem flagByte_eq_one (b : Bool) : flagByte b = 1 ↔ b = true := by cases b <;> simp [flagByte]

/-- VF after a draw past its checks: a flag. -/
theorem drawSprite_vf_cases (x y : Reg) (n : Nat) (s : State) :
    (drawSprite x y n s).reg vf = 0 ∨ (drawSprite x y n s).reg vf = 1 := by
  simp only [drawSprite, State.advance_reg, State.reg_setReg_self]
  exact flagByte_cases _

/-- VF after a draw past its checks: whether a toggled cell was set. -/
theorem drawSprite_vf (x y : Reg) (n : Nat) (s : State) :
    (drawSprite x y n s).reg vf = 1 ↔ ∃ c ∈ s.spriteCells (s.reg x) (s.reg y) n, s.cell c = true := by
  simp only [drawSprite, State.advance_reg, State.reg_setReg_self, flagByte_eq_one,
    (paint_spec (s.spriteCells_nodup _ _ _) s.fb false).2, Bool.false_eq_true, false_or, State.cell]

/-- A draw past its checks writes the screen, VF, the redraw flag and `pc`. -/
theorem drawSprite_eq (x y : Reg) (n : Nat) (s : State) :
    drawSprite x y n s = { s with v := (drawSprite x y n s).v, fb := (drawSprite x y n s).fb,
                                  draw := true, pc := s.pc + 2 } := rfl

/-! ### Faults and bounds -/

/-- Taking a fault is a next state: the same, with the fault latched. -/
theorem raise_eq (f : Fault) (s : State) : raise f s = .next { s with fault := some f } := rfl

/-- A bounds check that goes on. -/
theorem withAddress_of_le {top : Nat} (h : top ≤ 0xFFF) (s : State)
    (go : Host.Outcome State Fault Refusal) : withAddress top s go = go := by
  simp [withAddress, Nat.not_lt.mpr h]

/-- A bounds check that raises. -/
theorem withAddress_of_gt {top : Nat} (h : 0xFFF < top) (s : State)
    (go : Host.Outcome State Fault Refusal) :
    withAddress top s go = .next { s with fault := some (.addressOutOfRange top) } := by
  simp only [withAddress, h, if_true, raise_eq]

/-! ### Timers and the step -/

/-- The decay as arithmetic: down by one, never below 0. -/
theorem decay_toNat (t : Byte) : (decay t).toNat = t.toNat - 1 := by
  unfold decay
  split
  · rename_i h
    simp [h]
  · rename_i h
    have h0 : t.toNat ≠ 0 := fun e => h (BitVec.eq_of_toNat_eq (by simpa using e))
    have := t.isLt
    have h1 : (1 : Byte).toNat = 1 := rfl
    rw [BitVec.toNat_sub, h1]
    omega

theorem afterInstr_of_fault {t : State} {f : Fault} (h : t.fault = some f) : afterInstr t = t := by
  simp [afterInstr, h]

theorem afterInstr_of_none {t : State} (h : t.fault = none) : afterInstr t = t.timerDecay := by
  simp [afterInstr, h]

/-- What follows an instruction changes the timers and nothing else. -/
theorem afterInstr_eq (t : State) :
    afterInstr t = { t with dt := (afterInstr t).dt, st := (afterInstr t).st } := by
  unfold afterInstr
  split <;> rfl

/-- A fetch that succeeds reads the two bytes at `pc`, which exist. -/
theorem fetch_eq_ok {s : State} {op : Word} (h : fetch s = .ok op) :
    s.pc.toNat ≤ 0xFFE ∧ op = wordOfBytes (s.readByte s.pc.toNat) (s.readByte (s.pc.toNat + 1)) := by
  unfold fetch at h
  split at h
  · cases h
  · simp only [Except.ok.injEq] at h
    exact ⟨by omega, h.symm⟩

theorem fetch_of_le {s : State} (h : s.pc.toNat ≤ 0xFFE) :
    fetch s = .ok (wordOfBytes (s.readByte s.pc.toNat) (s.readByte (s.pc.toNat + 1))) := by
  simp [fetch, show ¬ 0xFFF < s.pc.toNat + 1 by omega]

/-- A fetch that faults: `pc + 1` is past the end of memory. -/
theorem fetch_eq_error {s : State} {f : Fault} (h : fetch s = .error f) :
    0xFFE < s.pc.toNat ∧ f = .addressOutOfRange (s.pc.toNat + 1) := by
  unfold fetch at h
  split at h
  · simp only [Except.error.injEq] at h
    exact ⟨by omega, h.symm⟩
  · cases h

/-- ALL THAT A STEP CAN DO, when it answers a next state: nothing on a halted core; a fault of fetch or
of decode; or one instruction, which faulted or after which the timers decayed. -/
theorem step_cases {s t : State} (h : step s = .next t) :
    (s.fault ≠ none ∧ t = s) ∨
    (s.fault = none ∧ ∃ f, fetch s = .error f ∧ t = { s with fault := some f }) ∨
    (s.fault = none ∧ ∃ op, fetch s = .ok op ∧ decodeWord op = none ∧
      t = { s with fault := some (.unknownOpcode op) }) ∨
    (s.fault = none ∧ ∃ op i u, fetch s = .ok op ∧ decodeWord op = some i ∧ exec i s = .next u ∧
      t = afterInstr u) := by
  unfold step cycle at h
  cases hh : s.fault with
  | some f =>
    simp only [hh, Host.Outcome.next.injEq] at h
    exact Or.inl ⟨by simp, h.symm⟩
  | none =>
    simp only [hh] at h
    cases hf : fetch s with
    | error f =>
      simp only [hf, raise_eq, Host.Outcome.next.injEq] at h
      exact Or.inr (Or.inl ⟨rfl, f, rfl, h.symm⟩)
    | ok op =>
      simp only [hf, runOpcode] at h
      cases hd : decodeWord op with
      | none =>
        simp only [hd, raise_eq, Host.Outcome.next.injEq] at h
        exact Or.inr (Or.inr (Or.inl ⟨rfl, op, rfl, hd, h.symm⟩))
      | some i =>
        simp only [hd] at h
        cases he : exec i s with
        | next u =>
          simp only [he, endStep, Host.Outcome.next.injEq] at h
          exact Or.inr (Or.inr (Or.inr ⟨rfl, op, i, u, rfl, hd, he, h.symm⟩))
        | fault f => simp [he, endStep] at h
        | refused r => simp [he, endStep] at h

/-- A step of a halted core. -/
theorem step_of_halted {s : State} {f : Fault} (h : s.fault = some f) : step s = .next s := by
  simp [step, cycle, h]

/-- A step whose fetch faults. -/
theorem step_of_fetch_error {s : State} {f : Fault} (h : s.fault = none) (hf : fetch s = .error f) :
    step s = raise f s := by
  simp [step, cycle, h, hf]

/-- A step whose fetch succeeds. -/
theorem step_of_fetch_ok {s : State} {op : Word} (h : s.fault = none) (hf : fetch s = .ok op) :
    step s = runOpcode op s := by
  simp [step, cycle, h, hf]

/-- The two bytes of a word make the word. -/
theorem wordOfBytes_split (op : Word) : wordOfBytes (highByte op) (lowByte op) = op := by
  apply BitVec.eq_of_getLsbD_eq
  intro i hi
  simp only [wordOfBytes, highByte, lowByte, BitVec.getLsbD_append, BitVec.getLsbD_extractLsb']
  split
  · simp [*]
  · rename_i h
    simp [show i - 8 < 8 by omega, show 8 + (i - 8) = i by omega]

/-- An opcode placed at a `pc` that can fetch is what the next fetch reads. -/
theorem fetch_placeOpcode {s : State} (hw : Memory.wf s.font s.mem = true) (h : s.pc.toNat ≤ 0xFFE) (op : Word) :
    fetch (placeOpcode s op) = .ok op := by
  have hp : placeOpcode s op = s.writeBytes s.pc.toNat [highByte op, lowByte op] := by
    simp [placeOpcode, show ¬ 0xFFF < s.pc.toNat + 1 by omega]
  rw [hp, fetch_of_le (by simpa using h)]
  have h0 := State.readByte_writeBytes_inside hw (a := s.pc.toNat) (k := 0)
    (bs := [highByte op, lowByte op]) (by simp; omega) (by simp)
  have h1 := State.readByte_writeBytes_inside hw (a := s.pc.toNat) (k := 1)
    (bs := [highByte op, lowByte op]) (by simp; omega) (by simp)
  simp only [Nat.add_zero, List.getElem_cons_zero, List.getElem_cons_succ] at h0 h1
  rw [State.writeBytes_pc, h0, h1, wordOfBytes_split]

end Sys2Proof.Machine
end

