-- ==== Sys2Proof/Laws/PerInstr.lean ====
section
/-! SUPPORT. A law of every instruction as syntax, one lemma per constructor: the word it encodes to is
one of its own row's words (30_encoding.md R66, R67). -/

namespace Sys2Proof

theorem nibble_and_ones (f : BitVec 4) : f &&& 15#4 = f := BitVec.and_allOnes

theorem byte_and_ones (b : Byte) : b &&& 255#8 = b := BitVec.and_allOnes

/-- The bits a row fixes, in a word of format `NNN`. -/
theorem nnn_and_mask (f : BitVec 4) (a : Addr12) : (f ++ a : Word) &&& 0xF000 = f ++ 0#12 := by
  have h : (0xF000 : Word) = 0xF#4 ++ 0#12 := rfl
  rw [h, BitVec.and_append]
  simp [nibble_and_ones]

/-- The same in format `XKK`, where the family alone is fixed. -/
theorem xkk_and_family (f : BitVec 4) (x : Reg) (kk : Byte) :
    (f ++ regBits x ++ kk : Word) &&& 0xF000 = f ++ 0#4 ++ 0#8 := by
  have h : (0xF000 : Word) = 0xF#4 ++ 0#4 ++ 0#8 := rfl
  rw [h, BitVec.and_append, BitVec.and_append]
  simp [nibble_and_ones]

/-- The same in format `XSS`, where the low byte is fixed too. -/
theorem xkk_and_mask (f : BitVec 4) (x : Reg) (kk : Byte) :
    (f ++ regBits x ++ kk : Word) &&& 0xF0FF = f ++ 0#4 ++ kk := by
  have h : (0xF0FF : Word) = 0xF#4 ++ 0#4 ++ 0xFF#8 := rfl
  rw [h, BitVec.and_append, BitVec.and_append]
  simp [nibble_and_ones, byte_and_ones]

/-- The same in format `XYN`. -/
theorem xyn_and_family (f : BitVec 4) (x y : Reg) (n : BitVec 4) :
    (f ++ regBits x ++ regBits y ++ n : Word) &&& 0xF000 = f ++ 0#4 ++ 0#4 ++ 0#4 := by
  have h : (0xF000 : Word) = 0xF#4 ++ 0#4 ++ 0#4 ++ 0#4 := rfl
  rw [h, BitVec.and_append, BitVec.and_append, BitVec.and_append]
  simp [nibble_and_ones]

/-- The same in format `XYS`. -/
theorem xyn_and_mask (f : BitVec 4) (x y : Reg) (n : BitVec 4) :
    (f ++ regBits x ++ regBits y ++ n : Word) &&& 0xF00F = f ++ 0#4 ++ 0#4 ++ n := by
  have h : (0xF00F : Word) = 0xF#4 ++ 0#4 ++ 0#4 ++ 0xF#4 := rfl
  rw [h, BitVec.and_append, BitVec.and_append, BitVec.and_append]
  simp [nibble_and_ones]

/-- The word of `i` matches the row of `i`. -/
def Laws.EncodeRow.Statement (i : Instr) : Prop := encode i &&& (rowOf i).mask = (rowOf i).bits

theorem Laws.EncodeRow.clearScreen : Laws.EncodeRow.Statement .clearScreen := rfl
theorem Laws.EncodeRow.ret : Laws.EncodeRow.Statement .ret := rfl
theorem Laws.EncodeRow.jump (nnn : Addr12) : Laws.EncodeRow.Statement (.jump nnn) := nnn_and_mask _ _
theorem Laws.EncodeRow.call (nnn : Addr12) : Laws.EncodeRow.Statement (.call nnn) := nnn_and_mask _ _
theorem Laws.EncodeRow.skipEqImm (x : Reg) (kk : Byte) : Laws.EncodeRow.Statement (.skipEqImm x kk) :=
  xkk_and_family _ _ _
theorem Laws.EncodeRow.skipNeImm (x : Reg) (kk : Byte) : Laws.EncodeRow.Statement (.skipNeImm x kk) :=
  xkk_and_family _ _ _
theorem Laws.EncodeRow.skipEqReg (x y : Reg) : Laws.EncodeRow.Statement (.skipEqReg x y) :=
  xyn_and_mask _ _ _ _
theorem Laws.EncodeRow.skipNeReg (x y : Reg) : Laws.EncodeRow.Statement (.skipNeReg x y) :=
  xyn_and_mask _ _ _ _
theorem Laws.EncodeRow.setImm (x : Reg) (kk : Byte) : Laws.EncodeRow.Statement (.setImm x kk) :=
  xkk_and_family _ _ _
theorem Laws.EncodeRow.addImm (x : Reg) (kk : Byte) : Laws.EncodeRow.Statement (.addImm x kk) :=
  xkk_and_family _ _ _
theorem Laws.EncodeRow.setReg (x y : Reg) : Laws.EncodeRow.Statement (.setReg x y) := xyn_and_mask _ _ _ _
theorem Laws.EncodeRow.orReg (x y : Reg) : Laws.EncodeRow.Statement (.orReg x y) := xyn_and_mask _ _ _ _
theorem Laws.EncodeRow.andReg (x y : Reg) : Laws.EncodeRow.Statement (.andReg x y) := xyn_and_mask _ _ _ _
theorem Laws.EncodeRow.xorReg (x y : Reg) : Laws.EncodeRow.Statement (.xorReg x y) := xyn_and_mask _ _ _ _
theorem Laws.EncodeRow.addReg (x y : Reg) : Laws.EncodeRow.Statement (.addReg x y) := xyn_and_mask _ _ _ _
theorem Laws.EncodeRow.sub (x y : Reg) : Laws.EncodeRow.Statement (.sub x y) := xyn_and_mask _ _ _ _
theorem Laws.EncodeRow.shr (x : Reg) : Laws.EncodeRow.Statement (.shr x) := xyn_and_mask _ _ _ _
theorem Laws.EncodeRow.subn (x y : Reg) : Laws.EncodeRow.Statement (.subn x y) := xyn_and_mask _ _ _ _
theorem Laws.EncodeRow.shl (x : Reg) : Laws.EncodeRow.Statement (.shl x) := xyn_and_mask _ _ _ _
theorem Laws.EncodeRow.setI (nnn : Addr12) : Laws.EncodeRow.Statement (.setI nnn) := nnn_and_mask _ _
theorem Laws.EncodeRow.jumpV0 (nnn : Addr12) : Laws.EncodeRow.Statement (.jumpV0 nnn) := nnn_and_mask _ _
theorem Laws.EncodeRow.random (x : Reg) (kk : Byte) : Laws.EncodeRow.Statement (.random x kk) :=
  xkk_and_family _ _ _
theorem Laws.EncodeRow.draw (x y : Reg) (n : Nat) : Laws.EncodeRow.Statement (.draw x y n) :=
  xyn_and_family _ _ _ _
theorem Laws.EncodeRow.skipKeyPressed (x : Reg) : Laws.EncodeRow.Statement (.skipKeyPressed x) :=
  xkk_and_mask _ _ _
theorem Laws.EncodeRow.skipKeyNotPressed (x : Reg) : Laws.EncodeRow.Statement (.skipKeyNotPressed x) :=
  xkk_and_mask _ _ _
theorem Laws.EncodeRow.getDelay (x : Reg) : Laws.EncodeRow.Statement (.getDelay x) := xkk_and_mask _ _ _
theorem Laws.EncodeRow.waitKey (x : Reg) : Laws.EncodeRow.Statement (.waitKey x) := xkk_and_mask _ _ _
theorem Laws.EncodeRow.setDelay (x : Reg) : Laws.EncodeRow.Statement (.setDelay x) := xkk_and_mask _ _ _
theorem Laws.EncodeRow.setSound (x : Reg) : Laws.EncodeRow.Statement (.setSound x) := xkk_and_mask _ _ _
theorem Laws.EncodeRow.addI (x : Reg) : Laws.EncodeRow.Statement (.addI x) := xkk_and_mask _ _ _
theorem Laws.EncodeRow.fontAddr (x : Reg) : Laws.EncodeRow.Statement (.fontAddr x) := xkk_and_mask _ _ _
theorem Laws.EncodeRow.bcd (x : Reg) : Laws.EncodeRow.Statement (.bcd x) := xkk_and_mask _ _ _
theorem Laws.EncodeRow.storeRegs (x : Reg) : Laws.EncodeRow.Statement (.storeRegs x) := xkk_and_mask _ _ _
theorem Laws.EncodeRow.loadRegs (x : Reg) : Laws.EncodeRow.Statement (.loadRegs x) := xkk_and_mask _ _ _

end Sys2Proof
end

