-- ==== Sys2Proof/Tests/Slice0.lean ====
section
/-! SUPPORT. Tests of the model against spec/95_test_vectors.md and words written out from the encoding
rules; then one witness for each statement that has hypotheses. -/

namespace Sys2Proof.Tests

open Sys2Proof Sys2Proof.Machine

/-! ### Helpers -/

/-- The state after one step on opcode `op` placed at `pc`, if the step answers one. -/
def after (s : State) (op : Nat) : Option State :=
  match step (s.withFetchWord 16 op) with
  | .next t => some t
  | _ => none

/-- Some fields of the state after one step. -/
def see {α : Type} (s : State) (op : Nat) (f : State → α) : Option α := (after s op).map f

/-- The reset state, "fresh" in 95_test_vectors.md. -/
def fresh : State := State.reset

/-- Fresh, with two registers set. -/
def regs2 (x : Reg) (a : Byte) (y : Reg) (b : Byte) : State := (fresh.setReg x a).setReg y b

/-- The decoder's answer for a word, as bytes in memory. -/
def dec (hi lo : Byte) : Option Instr :=
  match decode [hi, lo] with
  | .ok (i, _) => some i
  | .error _ => none

/-! ### Well-formedness -/

theorem test_illFormed_draw : (Instr.draw 0 0 16).wellFormed = false := by decide
theorem test_wellFormed_draw : (Instr.draw 0 0 15).wellFormed = true := by decide

/-! ### Decoding: one word of each constructor, its fields written out from R67 -/

theorem test_decode_fixed : dec 0x00 0xE0 = some .clearScreen ∧ dec 0x00 0xEE = some .ret := by decide
theorem test_decode_nnn : dec 0x1A 0xBC = some (.jump 0xABC) ∧ dec 0x2A 0xBC = some (.call 0xABC) ∧
    dec 0xAA 0xBC = some (.setI 0xABC) ∧ dec 0xBA 0xBC = some (.jumpV0 0xABC) := by decide
theorem test_decode_xkk : dec 0x33 0x10 = some (.skipEqImm 3 0x10) ∧ dec 0x43 0x10 = some (.skipNeImm 3 0x10) ∧
    dec 0x6F 0x77 = some (.setImm 15 0x77) ∧ dec 0x71 0xFF = some (.addImm 1 0xFF) ∧
    dec 0xC1 0x0F = some (.random 1 0x0F) := by decide
theorem test_decode_xys : dec 0x51 0x20 = some (.skipEqReg 1 2) ∧ dec 0x91 0x20 = some (.skipNeReg 1 2) ∧
    dec 0x81 0x20 = some (.setReg 1 2) ∧ dec 0x81 0x21 = some (.orReg 1 2) ∧
    dec 0x81 0x22 = some (.andReg 1 2) ∧ dec 0x81 0x23 = some (.xorReg 1 2) := by decide
theorem test_decode_flags : dec 0x81 0x24 = some (.addReg 1 2) ∧ dec 0x81 0x25 = some (.sub 1 2) ∧
    dec 0x81 0x26 = some (.shr 1) ∧ dec 0x81 0xF6 = some (.shr 1) ∧ dec 0x81 0x27 = some (.subn 1 2) ∧
    dec 0x81 0x2E = some (.shl 1) := by decide
theorem test_decode_draw : dec 0xD1 0x25 = some (.draw 1 2 5) := by decide
theorem test_decode_keys : dec 0xE5 0x9E = some (.skipKeyPressed 5) ∧
    dec 0xE5 0xA1 = some (.skipKeyNotPressed 5) ∧ dec 0xF5 0x0A = some (.waitKey 5) := by decide
theorem test_decode_timers : dec 0xF1 0x07 = some (.getDelay 1) ∧ dec 0xF1 0x15 = some (.setDelay 1) ∧
    dec 0xF1 0x18 = some (.setSound 1) := by decide
theorem test_decode_index : dec 0xF0 0x1E = some (.addI 0) ∧ dec 0xF3 0x29 = some (.fontAddr 3) ∧
    dec 0xF0 0x33 = some (.bcd 0) ∧ dec 0xF2 0x55 = some (.storeRegs 2) ∧
    dec 0xF2 0x65 = some (.loadRegs 2) := by decide
/-- X1 to X8 of section 2.1, and 9121. -/
theorem test_decode_unknown : dec 0x51 0x21 = none ∧ dec 0x81 0x28 = none ∧ dec 0xE1 0x9F = none ∧
    dec 0xF1 0x00 = none ∧ dec 0x00 0x00 = none ∧ dec 0x00 0xE1 = none ∧ dec 0x01 0xE0 = none ∧
    dec 0xFF 0xFF = none ∧ dec 0x91 0x21 = none := by decide
theorem test_decode_truncated : decode [0x12] = .error .truncated := by decide
theorem test_encode : encode (.draw 1 2 5) = 0xD125 ∧ encode (.bcd 7) = 0xF733 ∧ encode (.shl 3) = 0x830E ∧
    encode (.call 0x208) = 0x2208 := by decide
theorem test_tableWord : decodeTableWord 16 0xA234 = some (.setI 0x234) ∧ decodeTableWord 16 0x0000 = none := by
  decide

/-! ### The step: faults, halting, fetch (sections 2.1, 2.2) -/

/-- X5: the fault is latched, `pc` stays. -/
theorem test_unknown_latches : see fresh 0x0000 (fun t => (t.fault, t.pc)) =
    some (some (.unknownOpcode 0x0000), 0x200) := by decide
/-- X8: no decay in a faulting step. -/
theorem test_fault_no_decay : see (fresh.setDt 4) 0xFFFF (fun t => (t.fault, t.dt)) =
    some (some (.unknownOpcode 0xFFFF), 4) := by decide
/-- X5, then a second step changes nothing (R208). -/
theorem test_halted : see { fresh with fault := some (.unknownOpcode 0), dt := 9 } 0x6001
    (fun t => (t.pc, t.dt, t.reg 0, t.fault.isSome)) = some (0x200, 9, 0, true) := by decide
/-- F1: the last place an instruction can stand. -/
theorem test_fetch_last : see (fresh.setPc 0xFFE) 0x6007 (fun t => (t.pc, t.reg 0)) = some (0x1000, 7) := by
  decide
/-- F2, F3. -/
theorem test_fetch_bounds : see (fresh.setPc 0xFFF) 0x6000 (fun t => (t.fault, t.pc)) =
      some (some (.addressOutOfRange 0x1000), 0xFFF) ∧
    see (fresh.setPc 0x10FE) 0x6000 (fun t => t.fault) = some (some (.addressOutOfRange 0x10FF)) := by decide
/-- O1: an odd `pc` executes. -/
theorem test_fetch_odd : see (fresh.setPc 0x201) 0x6ABC (fun t => (t.reg 10, t.pc)) = some (0xBC, 0x203) := by
  decide
/-- T6: both timers decay on every completed step. -/
theorem test_decay : see ((fresh.setDt 2).setSt 7) 0x6000 (fun t => (t.dt, t.st)) = some (1, 6) := by decide

/-! ### Control flow (section 2.3) -/

theorem test_return_C1 : see fresh 0x00EE (fun t => (t.fault, t.pc, t.sp)) =
    some (some (.stackUnderflow 0x200), 0x200, 0) := by decide
theorem test_return_C8 : see { fresh with sp := 2, stack := (fresh.stack.set 0 0x204).set 1 0x30A } 0x00EE
    (fun t => (t.sp, t.pc)) = some (1, 0x30A) := by decide
theorem test_jump_C3 : see fresh 0x1FFF (fun t => (t.pc, t.fault)) = some (0xFFF, none) := by decide
theorem test_call_C6 : see (fresh.setPc 0xFFE) 0x2300 (fun t => (t.stack[0], t.sp, t.pc)) =
    some (0x1000, 1, 0x300) := by decide
theorem test_call_C7 : see { fresh with sp := 15 } 0x2200 (fun t => (t.sp, t.stack[15])) = some (16, 0x202) ∧
    see { fresh with sp := 16 } 0x2200 (fun t => (t.fault, t.sp, t.pc)) =
      some (some (.stackOverflow 0x200), 16, 0x200) := by decide
theorem test_skipEqImm_C9 : see (fresh.setReg 3 0x10) 0x3310 State.pc = some 0x204 ∧
    see (fresh.setReg 3 0x11) 0x3310 State.pc = some 0x202 := by decide
theorem test_skipNeImm_C10 : see (fresh.setReg 3 0x10) 0x4310 State.pc = some 0x202 ∧
    see (fresh.setReg 3 0x11) 0x4310 State.pc = some 0x204 := by decide
theorem test_skipEqReg_C11 : see (regs2 1 9 2 9) 0x5120 State.pc = some 0x204 ∧
    see (regs2 1 9 2 8) 0x5120 State.pc = some 0x202 := by decide
theorem test_skipNeReg_C13 : see (regs2 1 9 2 8) 0x9120 State.pc = some 0x204 ∧
    see (regs2 1 9 2 9) 0x9120 State.pc = some 0x202 := by decide
/-- C2, C16: V0 is used, whatever the digit in the place of `x`, and the sum is not reduced. -/
theorem test_jumpV0 : see (fresh.setReg 0 0xFF) 0xBFFF (fun t => (t.pc, t.reg 15, t.fault)) =
      some (0x10FE, 0, none) ∧
    see (regs2 0 1 2 0x77) 0xB2FF State.pc = some 0x300 := by decide

/-! ### ALU (section 2.4) -/

theorem test_setImm_A34 : see fresh 0x6F77 (fun t => (t.reg 15, t.pc)) = some (0x77, 0x202) := by decide
theorem test_addImm_A25 : see (regs2 1 5 15 1) 0x71FF (fun t => (t.reg 1, t.reg 15)) = some (4, 1) := by decide
theorem test_setReg_A35 : see (fresh.setReg 2 0x3C) 0x8120 (fun t => (t.reg 1, t.reg 2)) = some (0x3C, 0x3C) := by
  decide
theorem test_or_A27 : see ((regs2 1 0xF0 2 0x0F).setReg 15 7) 0x8121 (fun t => (t.reg 1, t.reg 15)) =
    some (0xFF, 7) := by decide
theorem test_and_A28 : see ((regs2 1 0xF3 2 0x3F).setReg 15 7) 0x8122 (fun t => (t.reg 1, t.reg 15)) =
    some (0x33, 7) := by decide
theorem test_xor_A29 : see ((regs2 1 0xFF 2 0x0F).setReg 15 7) 0x8123 (fun t => (t.reg 1, t.reg 15)) =
    some (0xF0, 7) := by decide
/-- A2, A3: sums 255 and 256. -/
theorem test_addReg_carry : see (regs2 0 0xFF 1 0) 0x8014 (fun t => (t.reg 0, t.reg 15)) = some (0xFF, 0) ∧
    see (regs2 0 0xFF 1 1) 0x8014 (fun t => (t.reg 0, t.reg 15)) = some (0, 1) := by decide
/-- A6b, A7: VF as destination ends as the flag; VF as source is read first. -/
theorem test_addReg_vf : see (regs2 15 0x10 1 2) 0x8F14 (fun t => t.reg 15) = some 0 ∧
    see (regs2 0 0x10 15 5) 0x80F4 (fun t => (t.reg 0, t.reg 15)) = some (0x15, 0) := by decide
/-- A8, A9. -/
theorem test_sub : see (regs2 0 0x10 1 0x20) 0x8015 (fun t => (t.reg 0, t.reg 15)) = some (0xF0, 0) ∧
    see (regs2 0 0x20 1 0x20) 0x8015 (fun t => (t.reg 0, t.reg 15)) = some (0, 1) := by decide
/-- A12. -/
theorem test_sub_vf : see (regs2 15 5 1 3) 0x8F15 (fun t => t.reg 15) = some 1 := by decide
/-- A13, A14. -/
theorem test_subn : see (regs2 0 0x10 1 0x20) 0x8017 (fun t => (t.reg 0, t.reg 15)) = some (0x10, 1) ∧
    see (regs2 0 0x20 1 0x10) 0x8017 (fun t => (t.reg 0, t.reg 15)) = some (0xF0, 0) := by decide
/-- A16, A18. -/
theorem test_shr : see (regs2 1 5 0 0xAA) 0x8106 (fun t => (t.reg 1, t.reg 15, t.reg 0)) = some (2, 1, 0xAA) ∧
    see (fresh.setReg 1 0xFF) 0x8106 (fun t => (t.reg 1, t.reg 15)) = some (0x7F, 1) := by decide
/-- A20, A24. -/
theorem test_shl : see (regs2 1 0x81 0 0xAA) 0x810E (fun t => (t.reg 1, t.reg 15, t.reg 0)) = some (2, 1, 0xAA) ∧
    see (fresh.setReg 15 0x41) 0x8F0E (fun t => t.reg 15) = some 0 := by decide
/-- A31, with the random byte A7 given; the byte of a run is free. -/
theorem test_random : ((randomWith 0xA7 1 0x0F fresh).reg 1, (randomWith 0xA7 1 0x0F fresh).pc) = (0x07, 0x202) := by
  decide
/-- A32: the mask 0 gives 0 whatever the byte. -/
theorem test_random_mask0 : see (fresh.setReg 1 0xFF) 0xC100 (fun t => (t.randIndex, t.pc)) =
    some (1, 0x202) := by decide

/-! ### Index and memory (section 2.5) -/

theorem test_setI_M15 : see fresh 0xAFFF (fun t => (t.i, t.pc)) = some (0xFFF, 0x202) := by decide
/-- M1, M2. -/
theorem test_addI : see ((fresh.setI 0xFFF).setReg 0 0xFF) 0xF01E (fun t => (t.i, t.reg 15)) =
      some (0x10FE, 0) ∧
    see ((fresh.setI 0xFFFF).setReg 0 1) 0xF01E (fun t => t.i) = some 0 := by decide
/-- M3, M4. -/
theorem test_fontAddr : see (fresh.setReg 3 0x0A) 0xF329 (fun t => t.i) = some 0x32 ∧
    see (fresh.setReg 3 0xFF) 0xF329 (fun t => t.i) = some 0x4FB := by decide
/-- M5, M6. -/
theorem test_bcd_edge : see ((fresh.setI 0xFFD).setReg 0 0xFF) 0xF033
      (fun t => (t.readByte 0xFFD, t.readByte 0xFFE, t.readByte 0xFFF, t.fault)) = some (2, 5, 5, none) ∧
    see ((fresh.setI 0xFFE).setReg 0 0xFF) 0xF033 (fun t => (t.fault, t.readByte 0xFFE, t.pc)) =
      some (some (.addressOutOfRange 0x1000), 0, 0x200) := by decide
/-- M12 and M14: the digits of 123; the font can be overwritten. -/
theorem test_bcd : see ((fresh.setI 0x300).setReg 0 123) 0xF033
      (fun t => (t.readByte 0x300, t.readByte 0x301, t.readByte 0x302)) = some (1, 2, 3) ∧
    see (fresh.setReg 0 0xFF) 0xF033 (fun t => (t.readByte 0, t.readByte 1, t.readByte 2)) =
      some (2, 5, 5) := by decide
/-- M7, M8. -/
theorem test_storeRegs : see ((regs2 0 1 15 0xEE).setI 0xFF0) 0xFF55
      (fun t => (t.readByte 0xFF0, t.readByte 0xFF1, t.readByte 0xFFF, t.i)) = some (1, 0, 0xEE, 0xFF0) ∧
    see ((regs2 0 1 15 0xEE).setI 0xFF1) 0xFF55 (fun t => (t.fault, t.readByte 0xFF1)) =
      some (some (.addressOutOfRange 0x1000), 0) := by decide
/-- P2's `load-regs V2`; M9. -/
theorem test_loadRegs : see ((fresh.writeBytes 0x300 [2, 5, 4, 9]).setI 0x300) 0xF265
      (fun t => (t.reg 0, t.reg 1, t.reg 2, t.reg 3, t.i)) = some (2, 5, 4, 0, 0x300) ∧
    see ((regs2 0 9 1 9).setI 0xFFF) 0xF165 (fun t => (t.fault, t.reg 0)) =
      some (some (.addressOutOfRange 0x1000), 9) := by decide
/-- R20: reset puts the font low; the default glyph 7 (93 G2). -/
theorem test_font : (fresh.readByte 0x23, fresh.readByte 0x24, fresh.readByte 0x4F, fresh.readByte 0x50) =
    (0xF0, 0x10, 0x80, 0) := by decide
/-- The canonical form: writing what an unlisted address reads as removes the entry. -/
theorem test_memory_canonical : ((fresh.writeByte 0x300 7).writeByte 0x300 0).mem = [] ∧
    (fresh.writeByte 0 0xF0).mem = [] ∧ (fresh.writeByte 0 0).mem = [(0, 0)] := by decide

/-! ### Display (section 2.6) -/

/-- Fresh with `I = 0x300`, a sprite there and two registers set. -/
def sprite (x : Reg) (a : Byte) (y : Reg) (b : Byte) (bytes : List Byte) : State :=
  (((fresh.setI 0x300).writeBytes 0x300 bytes).setReg x a).setReg y b

/-- DR12: all cells set, then clear. -/
theorem test_clearScreen : see { fresh with fb := Vector.replicate 32 (BitVec.allOnes 64) } 0x00E0
    (fun t => (t.fb == Framebuffer.blank, t.draw, t.reg 15, t.pc)) = some (true, true, 0, 0x202) := by decide
/-- DR1: past the right edge into the next row. -/
theorem test_draw_DR1 : see (sprite 0 60 1 0 [0xFF]) 0xD011
    (fun t => (t.fb[0], t.fb[1], t.fb[2], t.reg 15, t.draw)) = some (0xF#64 <<< 60, 0xF, 0, 0, true) := by decide
/-- DR3, DR4: out of range, nothing drawn. -/
theorem test_draw_range : see (sprite 0 57 1 31 [0]) 0xD011 (fun t => (t.fault, t.draw)) =
      some (some (.outOfBoundsDraw 2048), false) ∧
    see (sprite 0 0 1 28 []) 0xD015 (fun t => t.fault) = some (some (.outOfBoundsDraw 2055)) := by decide
/-- DR7: no rows, no fault. -/
theorem test_draw_DR7 : see ((sprite 0 0xFF 1 0xFF []).setReg 15 1 |>.setI 0xFFFF) 0xD010
    (fun t => (t.fault, t.reg 15, t.draw, t.pc, t.fb == Framebuffer.blank)) = some (none, 0, true, 0x202, true) := by decide
/-- DR8: both conditions, the address first. -/
theorem test_draw_DR8 : see ((sprite 0 0 1 0xFF []).setI 0xFFF) 0xD012 (fun t => t.fault) =
    some (some (.addressOutOfRange 0x1000)) := by decide
/-- DR10: VF as the column, then the flag. -/
theorem test_draw_DR10 : see (sprite 15 3 0 1 [0x80]) 0xDF01 (fun t => (t.fb[0], t.fb[1], t.reg 15)) =
    some (0, 8, 0) := by decide
/-- DR11: one cell set before: cells 0, 2, 3 after, a collision. -/
theorem test_draw_DR11 : see { sprite 0 0 1 0 [0xF0] with fb := Framebuffer.blank.set 0 2 } 0xD011
    (fun t => (t.fb[0], t.fb[1], t.reg 15)) = some (13, 0, 1) := by decide

/-! ### Keys and timers (section 2.7) -/

/-- K1, K2. -/
theorem test_skipKeyPressed : see (fresh.setReg 0 16 |>.setKey 0 true) 0xE09E (fun t => (t.fault, t.pc)) =
      some (some (.keyIndexOutOfRange 16), 0x200) ∧
    see (fresh.setReg 0 15 |>.setKey 15 true) 0xE09E State.pc = some 0x204 := by decide
/-- K3, K7. -/
theorem test_skipKeyNotPressed : see (fresh.setReg 0 15 |>.setKey 15 true) 0xE0A1 State.pc = some 0x202 ∧
    see fresh 0xE0A1 State.pc = some 0x204 := by decide
/-- K6: the lowest key. -/
theorem test_waitKey_K6 : see (fresh.setReg 0 0x77 |>.setKey 0 true |>.setKey 9 true) 0xF00A
    (fun t => (t.reg 0, t.pc)) = some (0, 0x202) := by decide
/-- K5: waiting; the timers decay. -/
theorem test_waitKey_K5 : see ((fresh.setReg 0 0x77).setDt 5 |>.setSt 1) 0xF00A
    (fun t => (t.reg 0, t.pc, t.dt, t.st)) = some (0x77, 0x200, 4, 0) := by decide
/-- T1, T2. -/
theorem test_setDelay : see (fresh.setDt 9) 0xF015 (fun t => t.dt) = some 0 ∧
    see (fresh.setReg 0 0xFF) 0xF015 (fun t => t.dt) = some 254 := by decide
/-- T3, T4. -/
theorem test_getDelay : see ((fresh.setReg 0 9).setDt 1) 0xF007 (fun t => (t.reg 0, t.dt)) = some (1, 0) ∧
    see (fresh.setReg 0 9) 0xF007 (fun t => (t.reg 0, t.dt)) = some (0, 0) := by decide
/-- T5, and R175's example. -/
theorem test_setSound : see (fresh.setReg 1 1) 0xF118 (fun t => t.st) = some 0 ∧
    see (fresh.setReg 1 0x10) 0xF118 (fun t => (t.st, t.dt)) = some (0x0F, 0) := by decide

/-! ### Reset and load (section 2.8) -/

/-- L4: a shorter image over a longer one. -/
theorem test_load_L4 : (((fresh.loadProgram [1, 2, 3, 4]).loadProgram [9]).readByte 0x200,
    ((fresh.loadProgram [1, 2, 3, 4]).loadProgram [9]).readByte 0x203) = (9, 4) := by decide
/-- L5, L6: reset erases the program and clears the fault. -/
theorem test_reset_L5 : { fresh.loadProgram [1, 2, 3, 4] with fault := some (.unknownOpcode 0) }.hostReset = fresh := by
  decide

/-! ### A witness for each statement with hypotheses -/

theorem witness_DecodeAfterEncode : (Instr.draw 15 15 15).wellFormed = true := by decide
theorem witness_EncodeAfterDecode : decodeWord 0x8126 = some (.shr 1) ∧ decodeWord 0xDFFF = some (.draw 15 15 15) := by
  decide
theorem witness_OpcodeMap : (0x00E0 : Word) &&& (rowOf .clearScreen).mask = (rowOf .clearScreen).bits := by decide
theorem witness_TwoBytes : decode [0x60, 0x05, 0xFF] = .ok (.setImm 0 5, [0xFF]) := by decide

/-- A running core at the last place that can fetch. -/
def lastPlace : State := (fresh.setPc 0xFFE).withFetchWord 16 0x6005

theorem witness_FetchIsBigEndian : lastPlace.pc.toNat ≤ 0xFFE ∧ MemCanonical fresh ∧ fresh.pc = 0x200 ∧
    ([0x60, 0x05] : List Byte).length ≤ 3584 := by unfold MemCanonical; decide
/-- A next state with no fault; and one with a fault. -/
theorem witness_StepRunsTheDecodedInstruction :
    (Running lastPlace ∧ FetchesInstr lastPlace (.setImm 0 5) ∧
      exec (.setImm 0 5) lastPlace = .next (lastPlace.setReg 0 5).advance) ∧
    (Running (fresh.withFetchWord 16 0x00EE) ∧ FetchesInstr (fresh.withFetchWord 16 0x00EE) .ret ∧
      exec .ret (fresh.withFetchWord 16 0x00EE) =
        .next { fresh.withFetchWord 16 0x00EE with fault := some (.stackUnderflow 0x200) }) := by
  unfold Running FetchesInstr
  exact ⟨⟨rfl, by decide, rfl⟩, ⟨rfl, by decide, rfl⟩⟩
theorem witness_StepFaultsOnFetchAndDecode : (Running (fresh.setPc 0xFFF) ∧ 0xFFE < (fresh.setPc 0xFFF).pc.toNat) ∧
    (Running fresh ∧ fresh.pc.toNat ≤ 0xFFE ∧
      decodeWord (wordOfBytes (fresh.readByte fresh.pc.toNat) (fresh.readByte (fresh.pc.toNat + 1))) = none) := by
  unfold Running
  decide
theorem witness_PlacedWordIsFetched : MemCanonical (fresh.setPc 0xFFE) ∧ (fresh.setPc 0xFFE).pc.toNat ≤ 0xFFE ∧
    decodeTableWord 16 0x6005 = some (.setImm 0 5) := by unfold MemCanonical; decide

/-- Running states whose step completes without setting a timer, and faults. -/
theorem witness_TimersDecayOnEveryCompletedStep :
    (Running lastPlace ∧ (after lastPlace 0x6005).map State.fault = some none) ∧
    (∀ x, ¬ FetchesInstr lastPlace (.setDelay x)) ∧ (∀ x, ¬ FetchesInstr lastPlace (.setSound x)) ∧
    (Running fresh ∧ ∃ t, step fresh = .next t ∧ t.fault ≠ none) := by
  unfold Running FetchesInstr
  exact ⟨by decide, by decide, by decide, rfl, _, rfl, by decide⟩
theorem witness_FaultTable : faultOf .ret fresh = some (.stackUnderflow 0x200) ∧
    faultOf (.bcd 0) (fresh.setI 0xFFD) = none ∧
    faultOf (.bcd 0) (fresh.setI 0xFFE) = some (.addressOutOfRange 0x1000) ∧
    faultOf (.draw 0 0 0) (fresh.setI 0xFFFF) = none := by decide
theorem witness_FaultsArePrecise : Running fresh ∧ ∃ t, step fresh = .next t ∧ t.fault ≠ none :=
  ⟨rfl, _, rfl, by decide⟩
theorem witness_Halted : { fresh with fault := some (.unknownOpcode 0) }.fault ≠ none ∧
    HostOp.clearRedraw ≠ HostOp.reset := by decide
theorem witness_Frame : faultOf (.storeRegs 15) (fresh.setI 0xFF0) = none ∧
    ∃ t, exec (.storeRegs 15) (fresh.setI 0xFF0) = .next t := ⟨by decide, _, rfl⟩
theorem witness_VfFlag : faultOf (.addReg 0 1) fresh = none ∧ (∃ t, exec (.addReg 0 1) fresh = .next t) ∧
    WritesFlag (.addReg 0 1) ∧ faultOf (.setImm 0 1) fresh = none ∧ (∃ t, exec (.setImm 0 1) fresh = .next t) ∧
    ¬ WritesFlag (.setImm 0 1) ∧ ¬ VfIsDestination (.setImm 0 1) :=
  ⟨rfl, ⟨_, rfl⟩, trivial, rfl, ⟨_, rfl⟩, id, show ¬ ((0 : Reg) = vf) by decide⟩
theorem witness_Keys : (∃ t, step fresh = .next t) ∧ ¬ ReadsKeys (.setImm 0 1) := ⟨⟨_, rfl⟩, id⟩
theorem witness_Redraw : (faultOf .clearScreen fresh = none ∧ (∃ t, exec .clearScreen fresh = .next t) ∧
      IsDisplay .clearScreen) ∧
    (faultOf (.jump 0) fresh = none ∧ (∃ t, exec (.jump 0) fresh = .next t) ∧ ¬ IsDisplay (.jump 0)) ∧
    (∃ t, step { fresh with draw := true } = .next t) ∧ { fresh with draw := true }.draw = true :=
  ⟨⟨rfl, ⟨_, rfl⟩, trivial⟩, ⟨rfl, ⟨_, rfl⟩, id⟩, ⟨_, rfl⟩, rfl⟩
theorem witness_FbOnlyByDisplay : (∃ t, step fresh = .next t) ∧ ∀ i, FetchesInstr fresh i → ¬ IsDisplay i := by
  refine ⟨⟨_, rfl⟩, fun i h => ?_⟩
  have hn : decodeWord (wordOfBytes (fresh.readByte fresh.pc.toNat) (fresh.readByte (fresh.pc.toNat + 1))) = none := by
    decide
  exact absurd (hn.symm.trans h.2) (by simp)
/-- Two states that differ in a slot that is not in use. -/
theorem witness_StaleSlots : SameButStaleSlots fresh { fresh with stack := fresh.stack.set 3 0x204 } ∧
    fresh ≠ { fresh with stack := fresh.stack.set 3 0x204 } := by
  refine ⟨⟨fun c hc => ?_, rfl⟩, by decide⟩
  cases c with
  | slot k => exact absurd ⟨k, Nat.zero_le _, rfl⟩ hc
  | _ => rfl
theorem witness_OnlyRandom : ∀ x kk, Instr.clearScreen ≠ .random x kk := by simp
theorem fresh_inv : Inv fresh := ⟨rfl, by decide, by decide⟩
theorem witness_StepKeepsInv : Inv fresh ∧ ∃ t, step fresh = .next t := ⟨fresh_inv, _, rfl⟩
theorem witness_HostKeepsInv : Inv fresh ∧ ∃ t, hostAct (.setKey 3 true) fresh = .next t := ⟨fresh_inv, _, rfl⟩
theorem witness_Canonical : MemCanonical fresh ∧ MemCanonical (fresh.setDt 1) ∧ fresh.font = (fresh.setDt 1).font ∧
    ∀ a, a < 4096 → fresh.readByte a = (fresh.setDt 1).readByte a := ⟨rfl, rfl, rfl, fun _ _ => rfl⟩
theorem witness_Load : MemCanonical fresh ∧ ([1, 2] : List Byte).length ≤ 3584 ∧
    3584 < (List.replicate 3585 (0 : Byte)).length ∧ (List.replicate 3584 (0 : Byte)).length ≤ 3584 :=
  ⟨rfl, by decide, by rw [List.length_replicate]; decide, by rw [List.length_replicate]⟩
/-- Both ends of the stack: one slot in use and all sixteen; none and fifteen. -/
theorem witness_Stack : ({ fresh with sp := 1 }.sp.val = (0 : Fin 16).val + 1 ∧
      { fresh with sp := 16 }.sp.val = (15 : Fin 16).val + 1) ∧
    (fresh.sp.val = (0 : Fin 16).val ∧ { fresh with sp := 15 }.sp.val = (15 : Fin 16).val) := by decide
theorem witness_patterns : (0x3310 : Word) &&& 0xF000 = 0x3000 ∧ (0x6005 : Word) &&& 0xF000 = 0x6000 ∧
    (0xA234 : Word) &&& 0xF000 = 0xA000 ∧ (0 : Reg) ≠ vf := by decide
theorem witness_Bcd : MemCanonical (fresh.setI 0xFFD) ∧ (fresh.setI 0xFFD).i.toNat + 2 ≤ 0xFFF := by
  unfold MemCanonical; decide
theorem witness_RegRange : MemCanonical (fresh.setI 0xFF0) ∧ (fresh.setI 0xFF0).i.toNat + (15 : Reg).val ≤ 0xFFF := by
  unfold MemCanonical; decide
theorem witness_Restore : MemCanonical fresh ∧ fresh.i.toNat + (2 : Reg).val ≤ 0xFFF ∧
    ∃ t, exec (.storeRegs 2) fresh = .next t ∧ t.mem = t.mem ∧ t.font = t.font ∧ t.i = t.i :=
  ⟨rfl, by decide, _, rfl, rfl, rfl, rfl⟩
/-- A store over the next instruction: `I = 0x202`, `pc = 0x200`. -/
theorem witness_StoredBytesAreFetched : MemCanonical (fresh.setI 0x202) ∧ (fresh.setI 0x202).i.toNat + (1 : Reg).val ≤ 0xFFF ∧
    ∃ t, exec (.storeRegs 1) (fresh.setI 0x202) = .next t ∧ (1 : Reg).val = (0 : Reg).val + 1 ∧ (1 : Reg) ≤ 1 ∧
      t.pc.toNat = (fresh.setI 0x202).i.toNat + (0 : Reg).val := by
  refine ⟨rfl, by decide, _, rfl, by decide, by decide, by decide⟩
/-- No rows; and the last cell of the screen with the last byte of memory. -/
theorem witness_Draw : (0 = 0 ∨ False) ∧
    (((regs2 0 56 1 31).setI 0xFFF).i.toNat + 1 - 1 ≤ 0xFFF ∧
      ((((regs2 0 56 1 31).setI 0xFFF).reg 1).toNat + 1 - 1) * 64 + (((regs2 0 56 1 31).setI 0xFFF).reg 0).toNat + 7 ≤ 2047) := by
  decide
theorem witness_DrawTwice : faultOf (.draw 0 1 1) (sprite 0 0 1 0 [0xC0]) = none ∧
    ∃ t, exec (.draw 0 1 1) (sprite 0 0 1 0 [0xC0]) = .next t ∧ t.reg 0 = (sprite 0 0 1 0 [0xC0]).reg 0 ∧
      t.reg 1 = (sprite 0 0 1 0 [0xC0]).reg 1 := by
  refine ⟨by decide, _, rfl, by decide, by decide⟩
/-- The same with VF as the column of the first draw: the second names another register of that value. -/
theorem witness_DrawTwice_vf : faultOf (.draw 15 1 1) (sprite 15 9 1 0 [0xC0] |>.setReg 2 9) = none ∧
    ∃ t, exec (.draw 15 1 1) (sprite 15 9 1 0 [0xC0] |>.setReg 2 9) = .next t ∧
      t.reg 2 = (sprite 15 9 1 0 [0xC0] |>.setReg 2 9).reg 15 ∧
      t.reg 1 = (sprite 15 9 1 0 [0xC0] |>.setReg 2 9).reg 1 := by
  refine ⟨by decide, _, rfl, by decide, by decide⟩
theorem witness_KeySkips : ((fresh.setReg 0 15).reg 0).toNat = (15 : KeyCode).val := by decide
theorem witness_WaitKey : (∀ k, fresh.pressed k = false) ∧
    ((fresh.setKey 15 true).pressed 15 = true ∧ ∀ j, j < 15 → (fresh.setKey 15 true).pressed j = false) := by decide
theorem witness_Waiting : Running (fresh.withFetchWord 16 0xF50A) ∧
    FetchesInstr (fresh.withFetchWord 16 0xF50A) (.waitKey 5) ∧
    ∀ k, (fresh.withFetchWord 16 0xF50A).pressed k = false := by
  unfold Running FetchesInstr
  decide
theorem witness_SetTimers :
    (Running (fresh.withFetchWord 16 0xF015) ∧ FetchesInstr (fresh.withFetchWord 16 0xF015) (.setDelay 0)) ∧
    (Running (fresh.withFetchWord 16 0xF018) ∧ FetchesInstr (fresh.withFetchWord 16 0xF018) (.setSound 0)) ∧
    (Running (fresh.withFetchWord 16 0xF007) ∧ FetchesInstr (fresh.withFetchWord 16 0xF007) (.getDelay 0)) := by
  unfold Running FetchesInstr
  decide
theorem witness_Spinning : Spinning (fresh.withFetchWord 16 0x1200) := by
  refine ⟨rfl, 0x200, ?_, rfl⟩
  unfold FetchesInstr
  decide

end Sys2Proof.Tests
end

section
/-! The key flags (10_state.md R18): no instruction writes them, and all but three act the same whatever
they are. -/

namespace Sys2Proof.Machine

open Sys2Proof

/-! ### The state with other key flags -/

/-- `s` with the key flags `keys`, as the host may have left them before the step (R18, R176). -/
def State.withKeys (s : State) (keys : Vector Bool 16) : State := { s with key := keys }

section

variable (s : State) (keys : Vector Bool 16)

@[simp] theorem State.withKeys_key : (s.withKeys keys).key = keys := rfl
@[simp] theorem State.withKeys_pc : (s.withKeys keys).pc = s.pc := rfl

theorem State.withKeys_self : s.withKeys s.key = s := rfl

theorem State.writeBytes_withKeys (a : Nat) (bs : List Byte) :
    (s.withKeys keys).writeBytes a bs = (s.writeBytes a bs).withKeys keys := by
  induction bs generalizing s a with
  | nil => rfl
  | cons b rest ih => exact ih (s.writeByte a b) (a + 1)

theorem State.loadFrom_withKeys (a : Nat) (ks : List Reg) :
    (s.withKeys keys).loadFrom a ks = (s.loadFrom a ks).withKeys keys := by
  induction ks generalizing s with
  | nil => rfl
  | cons k rest ih => exact ih (s.setReg k (s.readByte (a + k.val)))

theorem State.push_withKeys (w : Word) :
    (s.withKeys keys).push w = (s.push w).map (·.withKeys keys) := by
  by_cases hs : s.sp.val < 16
  · rw [State.push_of_lt hs]
    exact State.push_of_lt (s := s.withKeys keys) hs w
  · simp [State.push, State.withKeys, hs]

theorem State.pop_withKeys :
    (s.withKeys keys).pop = s.pop.map (Prod.map id (·.withKeys keys)) := by
  by_cases hs : 0 < s.sp.val
  · rw [State.pop_of_pos hs]
    exact State.pop_of_pos (s := s.withKeys keys) hs
  · simp [State.pop, State.withKeys, hs]

/-! ### The instructions that do not read them -/

/-- A bounds check does not read the key flags. -/
theorem withAddress_withKeys (top : Nat) (go : Host.Outcome State Fault Refusal) :
    withAddress top (s.withKeys keys) (mapNext (·.withKeys keys) go) =
      mapNext (·.withKeys keys) (withAddress top s go) := by
  unfold withAddress
  split <;> rfl

theorem execReturn_withKeys :
    execReturn (s.withKeys keys) = mapNext (·.withKeys keys) (execReturn s) := by
  simp only [execReturn, State.pop_withKeys]
  cases s.pop <;> rfl

theorem execCall_withKeys (nnn : Addr12) :
    execCall nnn (s.withKeys keys) = mapNext (·.withKeys keys) (execCall nnn s) := by
  simp only [execCall, State.withKeys_pc, State.push_withKeys]
  cases s.push (s.pc + 2) <;> rfl

theorem execDraw_withKeys (x y : Reg) (n : Nat) :
    execDraw x y n (s.withKeys keys) = mapNext (·.withKeys keys) (execDraw x y n s) := by
  unfold execDraw
  split
  · rfl
  · rw [← withAddress_withKeys, apply_ite (mapNext (·.withKeys keys))]
    rfl

theorem execBcd_withKeys (x : Reg) :
    execBcd x (s.withKeys keys) = mapNext (·.withKeys keys) (execBcd x s) := by
  simp only [execBcd, ← withAddress_withKeys, State.writeBytes_withKeys]
  rfl

theorem execStoreRegs_withKeys (x : Reg) :
    execStoreRegs x (s.withKeys keys) = mapNext (·.withKeys keys) (execStoreRegs x s) := by
  simp only [execStoreRegs, ← withAddress_withKeys, State.writeBytes_withKeys]
  rfl

theorem execLoadRegs_withKeys (x : Reg) :
    execLoadRegs x (s.withKeys keys) = mapNext (·.withKeys keys) (execLoadRegs x s) := by
  simp only [execLoadRegs, ← withAddress_withKeys, State.loadFrom_withKeys]
  rfl

/-- NONINTERFERENCE: an instruction that is not one of the three key readers does the same under any key
flags, and hands them on. -/
theorem exec_withKeys {i : Instr} (hi : ¬ ReadsKeys i) :
    exec i (s.withKeys keys) = mapNext (·.withKeys keys) (exec i s) := by
  cases i with
  | skipKeyPressed x => exact absurd trivial hi
  | skipKeyNotPressed x => exact absurd trivial hi
  | waitKey x => exact absurd trivial hi
  | ret => exact execReturn_withKeys s keys
  | call nnn => exact execCall_withKeys s keys nnn
  | draw x y n => exact execDraw_withKeys s keys x y n
  | bcd x => exact execBcd_withKeys s keys x
  | storeRegs x => exact execStoreRegs_withKeys s keys x
  | loadRegs x => exact execLoadRegs_withKeys s keys x
  | _ => rfl

end

/-! ### No instruction writes them -/

theorem skipOnKey_key {x : Reg} {wanted : Bool} {s t : State} (h : skipOnKey x wanted s = .next t) :
    t.key = s.key := by
  unfold skipOnKey at h
  split at h <;> cases h <;> rfl

theorem execWaitKey_key {x : Reg} {s t : State} (h : execWaitKey x s = .next t) : t.key = s.key := by
  unfold execWaitKey at h
  split at h <;> cases h <;> rfl

/-- An instruction that does not read the key flags hands on the flags it is given, so in particular
those of its own state. -/
theorem exec_key_of_not_readsKeys {i : Instr} {s t : State} (hi : ¬ ReadsKeys i)
    (h : exec i s = .next t) : t.key = s.key := by
  have hmap := exec_withKeys s s.key hi
  rw [State.withKeys_self, h] at hmap
  have ht : t = t.withKeys s.key := Host.Outcome.next.inj hmap
  rw [ht, State.withKeys_key]

/-- No instruction writes the key flags (R18). -/
theorem exec_key {i : Instr} {s t : State} (h : exec i s = .next t) : t.key = s.key := by
  by_cases hi : ReadsKeys i
  · cases i with
    | skipKeyPressed x => exact skipOnKey_key h
    | skipKeyNotPressed x => exact skipOnKey_key h
    | waitKey x => exact execWaitKey_key h
    | _ => exact hi.elim
  · exact exec_key_of_not_readsKeys hi h

/-- No step writes the key flags (R18). -/
theorem step_key {s t : State} (h : step s = .next t) : t.key = s.key := by
  obtain ⟨-, rfl⟩ | ⟨-, f, -, rfl⟩ | ⟨-, op, -, -, rfl⟩ | ⟨-, op, i, u, -, -, hexec, rfl⟩ :=
    step_cases h
  · rfl
  · rfl
  · rfl
  · rw [afterInstr_eq]
    simpa using exec_key hexec

/-! ### The host's SetKey -/

/-- A key write: the one flag, and no other. -/
theorem State.pressed_setKey (s : State) (k : KeyCode) (b : Bool) (j : KeyCode) :
    (s.setKey k b).pressed j = if j = k then b else s.pressed j := by
  simp [State.pressed, Vector.getElem_set, Fin.ext_iff, eq_comm]

theorem State.setKey_keepsAllBut_key (s : State) (k : KeyCode) (b : Bool) :
    KeepsAllBut (fun c => c = .key k) s (s.setKey k b) := by
  intro c hc
  cases c with
  | key j =>
    have hj : j ≠ k := fun e => hc (congrArg Component.key e)
    simp [Same, State.pressed_setKey, hj]
  | _ => rfl

/-! ### The three instructions that read them -/

/-- Key 0 pressed, and no other. -/
def zeroKeyPressed : Vector Bool 16 := (State.reset.setKey 0 true).key

/-- A skip on the key of code 0. -/
theorem skipOnKey_of_reg_eq_zero {x : Reg} {s : State} (hx : s.reg x = 0) (wanted : Bool) :
    skipOnKey x wanted s = .next (s.skipIf (s.pressed 0 == wanted)) := by
  unfold skipOnKey
  rw [hx]
  rfl

theorem State.reset_reg (x : Reg) : State.reset.reg x = 0 := by simp [State.reset, State.reg]

/-- From reset, where every register names key 0, a skip on key goes to another address when key 0 is
pressed. -/
theorem skipOnKey_reads_keys (x : Reg) (wanted : Bool) :
    skipOnKey x wanted (State.reset.withKeys zeroKeyPressed) ≠
      mapNext (·.withKeys zeroKeyPressed) (skipOnKey x wanted State.reset) := by
  have hx := State.reset_reg x
  rw [skipOnKey_of_reg_eq_zero hx,
    skipOnKey_of_reg_eq_zero (s := State.reset.withKeys zeroKeyPressed) hx]
  intro h
  have hpc : State.reset.pc + (if true == wanted then 4 else 2) =
      State.reset.pc + (if false == wanted then 4 else 2) :=
    congrArg State.pc (Host.Outcome.next.inj h)
  cases wanted <;> exact absurd hpc (by decide)

/-- From reset, where no key is pressed, `wait-key` waits; it goes on when key 0 is pressed. -/
theorem execWaitKey_reads_keys (x : Reg) :
    execWaitKey x (State.reset.withKeys zeroKeyPressed) ≠
      mapNext (·.withKeys zeroKeyPressed) (execWaitKey x State.reset) := by
  intro h
  have hpc : State.reset.pc + 2 = State.reset.pc := congrArg State.pc (Host.Outcome.next.inj h)
  exact absurd hpc (by decide)

/-- A key reader acts differently from reset when key 0 is pressed. -/
theorem exec_reads_keys {i : Instr} (hi : ReadsKeys i) :
    exec i (State.reset.withKeys zeroKeyPressed) ≠
      mapNext (·.withKeys zeroKeyPressed) (exec i State.reset) := by
  cases i with
  | skipKeyPressed x => exact skipOnKey_reads_keys x true
  | skipKeyNotPressed x => exact skipOnKey_reads_keys x false
  | waitKey x => exact execWaitKey_reads_keys x
  | _ => exact hi.elim

/-- The semantic readers of the key flags are the three of R18. -/
theorem readsKeys_iff (i : Instr) :
    ReadsKeys i ↔ ∃ (s : State) (keys : Vector Bool 16),
      exec i (s.withKeys keys) ≠ mapNext (·.withKeys keys) (exec i s) := by
  constructor
  · intro hi
    exact ⟨State.reset, zeroKeyPressed, exec_reads_keys hi⟩
  · rintro ⟨s, keys, hne⟩
    by_contra hi
    exact hne (exec_withKeys s keys hi)

/-- Settles O18: no step writes a key flag because no instruction does; `SetKey` writes one; and an
instruction depends on the flags exactly if it is one of the three of R18. -/
theorem keysAreReadOnlyToTheCore : Obligations.KeysAreReadOnlyToTheCore := by
  refine ⟨fun s t => step_key, fun s k b => ⟨?_, s.setKey_keepsAllBut_key k b⟩, readsKeys_iff⟩
  simp [State.pressed_setKey]

end Sys2Proof.Machine
end

section
/-! The fetch (20_memory.md R44): the number its word makes of the two bytes at `pc`, and the bytes of a
loaded image. -/

namespace Sys2Proof.Machine

open Sys2Proof

/-- Big-endian (R44): the first byte counts for 256. -/
theorem wordOfBytes_toNat (hi lo : Byte) : (wordOfBytes hi lo).toNat = hi.toNat * 256 + lo.toNat := by
  rw [wordOfBytes, BitVec.toNat_append, ← Nat.shiftLeft_add_eq_or_of_lt lo.isLt, Nat.shiftLeft_eq]

/-- A load of an image that fits stores its bytes from the program base on (R242). -/
theorem State.loadProgram_of_le {bytes : List Byte} (h : bytes.length ≤ 3584) (s : State) :
    s.loadProgram bytes = s.writeBytes Config.progBase bytes := by
  have hstatus : loadStatus bytes = .ok := if_neg (Nat.not_lt.mpr h)
  simp only [State.loadProgram, hstatus]

/-- Byte `k` of a loaded image reads back at `0x200 + k` (R242). -/
theorem State.readByte_loadProgram {s : State} (hw : MemCanonical s) {bytes : List Byte}
    (h : bytes.length ≤ 3584) {k : Nat} (hk : k < bytes.length) :
    (s.loadProgram bytes).readByte (0x200 + k) = bytes[k] := by
  rw [State.loadProgram_of_le h]
  exact State.readByte_writeBytes_inside hw (show 0x200 + bytes.length ≤ 4096 by omega) hk

@[simp] theorem State.loadProgram_pc (s : State) (bytes : List Byte) : (s.loadProgram bytes).pc = s.pc := by
  unfold State.loadProgram
  split
  · exact State.writeBytes_pc s _ bytes
  · rfl

/-- With `pc` at the program base, the fetch after a load reads the first two bytes of the image. -/
theorem fetch_loadProgram {s : State} (hw : MemCanonical s) (hpc : s.pc = 0x200) {hi lo : Byte}
    {rest : List Byte} (h : (hi :: lo :: rest).length ≤ 3584) :
    fetch (s.loadProgram (hi :: lo :: rest)) = .ok (wordOfBytes hi lo) := by
  have hpcNat : (s.loadProgram (hi :: lo :: rest)).pc.toNat = 0x200 := by
    rw [State.loadProgram_pc, hpc]; rfl
  have hhi : (s.loadProgram (hi :: lo :: rest)).readByte 0x200 = hi :=
    State.readByte_loadProgram hw h (k := 0) (by simp)
  have hlo : (s.loadProgram (hi :: lo :: rest)).readByte (0x200 + 1) = lo :=
    State.readByte_loadProgram hw h (k := 1) (by simp)
  rw [fetch_of_le (by omega), hpcNat, hhi, hlo]

/-- Settles O7: a fetch that does not fault makes a word of the two bytes at `pc`, which a loaded image
has put there. -/
theorem fetchIsBigEndian : Obligations.FetchIsBigEndian :=
  ⟨fun _ hpc => ⟨_, fetch_of_le hpc, wordOfBytes_toNat _ _⟩,
    fun _ _ _ _ hw hpc hlen => ⟨_, fetch_loadProgram hw hpc hlen, wordOfBytes_toNat _ _⟩⟩

end Sys2Proof.Machine
end

section
/-! Decoding a list of bytes (30_encoding.md R62): decode reads a word, and hands on the bytes after it. -/

namespace Sys2Proof

/-- Decode answers an instruction exactly when the list begins with the two bytes of its word; the rest is
what follows them. -/
theorem decode_eq_ok_iff {bytes rest : List Byte} {i : Instr} :
    decode bytes = .ok (i, rest) ↔
      ∃ hi lo, bytes = hi :: lo :: rest ∧ decodeWord (wordOfBytes hi lo) = some i := by
  constructor
  · intro h
    unfold decode at h
    split at h
    case h_1 hi lo tail =>
      split at h
      · next j hword =>
        cases h
        exact ⟨hi, lo, rfl, hword⟩
      · cases h
    case h_2 => cases h
  · rintro ⟨hi, lo, rfl, hword⟩
    simp only [decode, hword]

/-- Settles O6: whether decode answers, and with which instruction, depends on the first word alone. -/
theorem everyInstructionIsTwoBytes : Obligations.EveryInstructionIsTwoBytes := by
  intro bytes rest i h
  obtain ⟨hi, lo, hbytes, hword⟩ := decode_eq_ok_iff.mp h
  exact ⟨hi, lo, hbytes, fun rest' => decode_eq_ok_iff.mpr ⟨hi, lo, rfl, hword⟩⟩

end Sys2Proof
end

section
/-! The skips on registers (40_control_flow.md R103, R108): what a skip leaves, and the opcode family as the
word's masked top nibble. -/

namespace Sys2Proof

/-- The mask `0xF000` keeps the family (R63). -/
theorem fieldFam_and_mask (op : Word) : fieldFam (op &&& 0xF000) = fieldFam op := by
  have htop : (op &&& 0xF000).extractLsb' 12 4 = op.extractLsb' 12 4 := by
    rw [BitVec.extractLsb'_and]
    exact nibble_and_ones _
  rw [fieldFam, fieldFam, htop]

/-- A word of pattern `3xkk` is a skip-eq on its fields `x` and `kk` (R67). -/
theorem decodeWord_of_mask_eq_3000 {op : Word} (h : op &&& 0xF000 = 0x3000) :
    decodeWord op = some (.skipEqImm (fieldX op) (fieldKK op)) := by
  have hfam : fieldFam op = 3 := by
    rw [← fieldFam_and_mask, h]
    rfl
  simp only [decodeWord, hfam]

end Sys2Proof

namespace Sys2Proof.Machine

open Sys2Proof

/-- A skip writes `pc` alone (R108), whether it is taken or not. -/
theorem State.skipIf_keepsAllBut_pc (s : State) (taken : Bool) :
    KeepsAllBut (fun c => c = .pc) s (s.skipIf taken) := by
  intro c hc
  cases c with
  | pc => exact absurd rfl hc
  | _ => rfl

/-- Where a skip on two equal bytes leaves `pc`, the bytes compared as numbers. -/
theorem State.skipIf_beq_pc (s : State) (a b : Byte) :
    (s.skipIf (a == b)).pc = if a.toNat = b.toNat then s.pc + 4 else s.pc + 2 := by
  simp only [State.skipIf_pc, beq_iff_eq, BitVec.toNat_inj, apply_ite (s.pc + ·)]

theorem exec_skipEqImm (x : Reg) (kk : Byte) (s : State) :
    exec (.skipEqImm x kk) s = .next (s.skipIf (s.reg x == kk)) := rfl

/-- Settles O35: the family of the word fixes the instruction, and the instruction is a skip on
`V[x] = kk`. -/
theorem skipEqImmSkipsOnEquality : Obligations.SkipEqImmSkipsOnEquality :=
  ⟨fun op h => ⟨fieldX op, fieldKK op, decodeWord_of_mask_eq_3000 h, fieldX_val op, fieldKK_toNat op⟩,
    fun x kk s => ⟨_, exec_skipEqImm x kk s, s.skipIf_beq_pc (s.reg x) kk, s.skipIf_keepsAllBut_pc _⟩⟩

end Sys2Proof.Machine
end

section
/-! The register write of the ALU (41_alu.md): what a write to `V[x]` with the advance leaves unchanged, and
the word of `set Vx,kk` (R120). -/

namespace Sys2Proof

/-- A word of pattern `6xkk` is a set on its fields `x` and `kk` (R67). -/
theorem decodeWord_of_mask_eq_6000 {op : Word} (h : op &&& 0xF000 = 0x6000) :
    decodeWord op = some (.setImm (fieldX op) (fieldKK op)) := by
  have hfam : fieldFam op = 6 := by
    rw [← fieldFam_and_mask, h]
    rfl
  simp only [decodeWord, hfam]

end Sys2Proof

namespace Sys2Proof.Machine

open Sys2Proof

/-- The frame of every instruction whose result goes to `V[x]` with no flag: `pc` and `V[x]` alone are
written, whatever the byte. -/
theorem State.advance_setReg_keepsAllBut (s : State) (x : Reg) (b : Byte) :
    KeepsAllBut (fun c => c = .pc ∨ c = .reg x) s (s.setReg x b).advance := by
  intro c hc
  cases c with
  | pc => exact absurd (.inl rfl) hc
  | reg r =>
    have hr : r ≠ x := fun e => hc (.inr (congrArg Component.reg e))
    exact State.reg_setReg_ne hr s b
  | _ => rfl

theorem exec_setImm (x : Reg) (kk : Byte) (s : State) :
    exec (.setImm x kk) s = .next (s.setReg x kk).advance := rfl

/-- Settles O37: the family of the word fixes the instruction, and the instruction is a write of `kk` to
`V[x]` with the advance; VF is a register like the others. -/
theorem setImmWritesTheByte : Obligations.SetImmWritesTheByte :=
  ⟨fun op h => ⟨fieldX op, fieldKK op, decodeWord_of_mask_eq_6000 h, fieldX_val op, fieldKK_toNat op⟩,
    fun x kk s => ⟨_, exec_setImm x kk s, s.reg_setReg_self x kk, State.advance_pc _,
      s.advance_setReg_keepsAllBut x kk⟩⟩

end Sys2Proof.Machine
end

section
/-! The index register (42_index_memory.md): what a write to `I` with the advance leaves unchanged, and the
word of `set I,nnn` (R140). -/

namespace Sys2Proof

/-- A word of pattern `Annn` is a set-I on its field `nnn` (R67). -/
theorem decodeWord_of_mask_eq_A000 {op : Word} (h : op &&& 0xF000 = 0xA000) :
    decodeWord op = some (.setI (fieldNNN op)) := by
  have hfam : fieldFam op = 0xA := by
    rw [← fieldFam_and_mask, h]
    rfl
  simp only [decodeWord, hfam]

end Sys2Proof

namespace Sys2Proof.Machine

open Sys2Proof

/-- An address operand is extended with zeros: as a word it is the same number, whatever its top bit. -/
theorem addrWord_toNat (nnn : Addr12) : (addrWord nnn).toNat = nnn.toNat :=
  BitVec.toNat_setWidth_of_le (by decide)

/-- The frame of every instruction whose result goes to `I`: `pc` and `I` alone are written, whatever the
word. -/
theorem State.advance_setI_keepsAllBut (s : State) (w : Word) :
    KeepsAllBut (fun c => c = .pc ∨ c = .index) s (s.setI w).advance := by
  intro c hc
  cases c with
  | pc => exact absurd (.inl rfl) hc
  | index => exact absurd (.inr rfl) hc
  | _ => rfl

theorem exec_setI (nnn : Addr12) (s : State) :
    exec (.setI nnn) s = .next (s.setI (addrWord nnn)).advance := rfl

/-- Settles O44: the family of the word fixes the instruction, and the instruction is a write of `nnn`,
extended with zeros, to `I` with the advance. -/
theorem setIWritesTheAddress : Obligations.SetIWritesTheAddress :=
  ⟨fun op h => ⟨fieldNNN op, decodeWord_of_mask_eq_A000 h, fieldNNN_toNat op⟩,
    fun nnn s => ⟨_, exec_setI nnn s, addrWord_toNat nnn, State.advance_pc _,
      s.advance_setI_keepsAllBut (addrWord nnn)⟩⟩

end Sys2Proof.Machine
end

section
/-! The sound timer (60_exceptions.md R214): every instruction and every step answers a next state, and from
two states that differ in `ST` alone the answers differ in `ST` alone. -/

namespace Sys2Proof.Machine

open Sys2Proof

/-! ### Every instruction and every step answers a next state -/

theorem withAddress_eq_next {go : Host.Outcome State Fault Refusal} (hgo : ∃ t, go = .next t) (top : Nat)
    (s : State) : ∃ t, withAddress top s go = .next t := by
  unfold withAddress
  split
  · exact ⟨_, raise_eq _ s⟩
  · exact hgo

theorem execReturn_eq_next (s : State) : ∃ t, execReturn s = .next t := by
  unfold execReturn
  split
  · exact ⟨_, rfl⟩
  · exact ⟨_, raise_eq _ s⟩

theorem execCall_eq_next (nnn : Addr12) (s : State) : ∃ t, execCall nnn s = .next t := by
  unfold execCall
  split
  · exact ⟨_, rfl⟩
  · exact ⟨_, raise_eq _ s⟩

theorem execDraw_eq_next (x y : Reg) (n : Nat) (s : State) : ∃ t, execDraw x y n s = .next t := by
  unfold execDraw
  split
  · exact ⟨_, rfl⟩
  · apply withAddress_eq_next
    split
    · exact ⟨_, raise_eq _ s⟩
    · exact ⟨_, rfl⟩

theorem skipOnKey_eq_next (x : Reg) (wanted : Bool) (s : State) :
    ∃ t, skipOnKey x wanted s = .next t := by
  unfold skipOnKey
  split
  · exact ⟨_, rfl⟩
  · exact ⟨_, raise_eq _ s⟩

theorem execWaitKey_eq_next (x : Reg) (s : State) : ∃ t, execWaitKey x s = .next t := by
  unfold execWaitKey
  split <;> exact ⟨_, rfl⟩

/-- No instruction stops or refuses: a fault is a next state, too (R207). -/
theorem exec_eq_next (i : Instr) (s : State) : ∃ t, exec i s = .next t := by
  cases i with
  | ret => exact execReturn_eq_next s
  | call nnn => exact execCall_eq_next nnn s
  | draw x y n => exact execDraw_eq_next x y n s
  | skipKeyPressed x => exact skipOnKey_eq_next x true s
  | skipKeyNotPressed x => exact skipOnKey_eq_next x false s
  | waitKey x => exact execWaitKey_eq_next x s
  | bcd x => exact withAddress_eq_next ⟨_, rfl⟩ _ s
  | storeRegs x => exact withAddress_eq_next ⟨_, rfl⟩ _ s
  | loadRegs x => exact withAddress_eq_next ⟨_, rfl⟩ _ s
  | _ => exact ⟨_, rfl⟩

/-- The step of a running core on an instruction that decodes is the instruction with what follows it. -/
theorem step_of_exec {s t : State} {op : Word} {i : Instr} (hrun : s.fault = none) (hf : fetch s = .ok op)
    (hd : decodeWord op = some i) (he : exec i s = .next t) : step s = .next (afterInstr t) := by
  rw [step_of_fetch_ok hrun hf]
  simp only [runOpcode, hd, he, endStep]

/-- The step of a running core on an unknown opcode latches the fault (R201). -/
theorem step_of_unknownOpcode {s : State} {op : Word} (hrun : s.fault = none) (hf : fetch s = .ok op)
    (hd : decodeWord op = none) : step s = .next { s with fault := some (.unknownOpcode op) } := by
  rw [step_of_fetch_ok hrun hf]
  simp only [runOpcode, hd, raise_eq]

/-- A step always answers a next state (R251). -/
theorem step_eq_next (s : State) : ∃ t, step s = .next t := by
  cases hfault : s.fault with
  | some f => exact ⟨s, step_of_halted hfault⟩
  | none =>
    cases hf : fetch s with
    | error f => exact ⟨_, step_of_fetch_error hfault hf⟩
    | ok op =>
      cases hd : decodeWord op with
      | none => exact ⟨_, step_of_unknownOpcode hfault hf hd⟩
      | some i =>
        obtain ⟨t, he⟩ := exec_eq_next i s
        exact ⟨_, step_of_exec hfault hf hd he⟩

/-! ### The operations under another sound timer -/

section

variable (s : State) (b : Byte)

theorem State.writeBytes_setSt (a : Nat) (bs : List Byte) :
    (s.setSt b).writeBytes a bs = (s.writeBytes a bs).setSt b := by
  rw [State.writeBytes_eq, State.writeBytes_eq s,
    State.writeBytes_congr (s := s) (s' := s.setSt b) rfl rfl]
  rfl

theorem State.loadFrom_setSt (a : Nat) (ks : List Reg) :
    (s.setSt b).loadFrom a ks = (s.loadFrom a ks).setSt b := by
  rw [State.loadFrom_eq, State.loadFrom_eq s,
    State.loadFrom_congr (s := s) (s' := s.setSt b) rfl rfl rfl]
  rfl

theorem State.push_setSt (w : Word) : (s.setSt b).push w = (s.push w).map (·.setSt b) := by
  by_cases hs : s.sp.val < 16
  · rw [State.push_of_lt hs]
    exact State.push_of_lt (s := s.setSt b) hs w
  · simp [State.push, hs]

theorem State.pop_setSt : (s.setSt b).pop = s.pop.map (Prod.map id (·.setSt b)) := by
  by_cases hs : 0 < s.sp.val
  · rw [State.pop_of_pos hs]
    exact State.pop_of_pos (s := s.setSt b) hs
  · simp [State.pop, hs]

/-- A bounds check does not read the sound timer. -/
theorem withAddress_setSt (top : Nat) (go : Host.Outcome State Fault Refusal) :
    withAddress top (s.setSt b) (mapNext (·.setSt b) go) = mapNext (·.setSt b) (withAddress top s go) := by
  unfold withAddress
  rw [apply_ite (mapNext (·.setSt b))]
  rfl

/-! ### The instructions under another sound timer -/

theorem execReturn_setSt : execReturn (s.setSt b) = mapNext (·.setSt b) (execReturn s) := by
  unfold execReturn
  rw [State.pop_setSt]
  cases s.pop <;> rfl

theorem execCall_setSt (nnn : Addr12) :
    execCall nnn (s.setSt b) = mapNext (·.setSt b) (execCall nnn s) := by
  unfold execCall
  rw [State.setSt_pc, State.push_setSt]
  cases s.push (s.pc + 2) <;> rfl

theorem execDraw_setSt (x y : Reg) (n : Nat) :
    execDraw x y n (s.setSt b) = mapNext (·.setSt b) (execDraw x y n s) := by
  unfold execDraw
  rw [apply_ite (mapNext (·.setSt b)), ← withAddress_setSt, apply_ite (mapNext (·.setSt b))]
  rfl

theorem skipOnKey_setSt (x : Reg) (wanted : Bool) :
    skipOnKey x wanted (s.setSt b) = mapNext (·.setSt b) (skipOnKey x wanted s) := by
  unfold skipOnKey
  rw [State.setSt_reg]
  cases keyCode? (s.reg x) <;> rfl

theorem execWaitKey_setSt (x : Reg) :
    execWaitKey x (s.setSt b) = mapNext (·.setSt b) (execWaitKey x s) := by
  have hkey : (s.setSt b).lowestPressed = s.lowestPressed := rfl
  unfold execWaitKey
  rw [hkey]
  cases s.lowestPressed <;> rfl

/-- `bcd` and `store-regs` past their operands: the check, the bytes stored, the advance. -/
theorem withAddress_writeBytes_setSt (top a : Nat) (bs : List Byte) :
    withAddress top (s.setSt b) (.next ((s.setSt b).writeBytes a bs).advance) =
      mapNext (·.setSt b) (withAddress top s (.next (s.writeBytes a bs).advance)) := by
  rw [← withAddress_setSt, State.writeBytes_setSt]
  rfl

theorem execLoadRegs_setSt (x : Reg) :
    execLoadRegs x (s.setSt b) = mapNext (·.setSt b) (execLoadRegs x s) := by
  unfold execLoadRegs
  rw [← withAddress_setSt, State.loadFrom_setSt]
  rfl

/-- NONINTERFERENCE: an instruction other than `set-sound` does the same whatever the sound timer is, and
hands the timer on. -/
theorem exec_setSt {i : Instr} (hi : ∀ x, i ≠ .setSound x) :
    exec i (s.setSt b) = mapNext (·.setSt b) (exec i s) := by
  cases i with
  | setSound x => exact absurd rfl (hi x)
  | ret => exact execReturn_setSt s b
  | call nnn => exact execCall_setSt s b nnn
  | draw x y n => exact execDraw_setSt s b x y n
  | skipKeyPressed x => exact skipOnKey_setSt s b x true
  | skipKeyNotPressed x => exact skipOnKey_setSt s b x false
  | waitKey x => exact execWaitKey_setSt s b x
  | bcd x => exact withAddress_writeBytes_setSt s b _ _ (bcdDigits (s.reg x))
  | storeRegs x => exact withAddress_writeBytes_setSt s b _ _ (s.regBytes x)
  | loadRegs x => exact execLoadRegs_setSt s b x
  | _ => rfl

/-- `set-sound` overwrites the sound timer: what it was before is lost. -/
theorem exec_setSound_setSt (x : Reg) : exec (.setSound x) (s.setSt b) = exec (.setSound x) s := rfl

end

/-! ### Outcomes that differ in the sound timer alone -/

/-- From states that differ in `ST` alone, every instruction answers states that differ in `ST` alone. -/
theorem exec_setSt_eq_upToSt {i : Instr} {s t : State} (h : exec i s = .next t) (b : Byte) :
    ∃ u, exec i (s.setSt b) = .next u ∧ u.setSt 0 = t.setSt 0 := by
  by_cases hi : ∃ x, i = .setSound x
  · obtain ⟨x, rfl⟩ := hi
    exact ⟨t, (exec_setSound_setSt s b x).trans h, rfl⟩
  · have hi' : ∀ x, i ≠ .setSound x := fun x e => hi ⟨x, e⟩
    exact ⟨t.setSt b, by rw [exec_setSt s b hi', h]; rfl, rfl⟩

/-- What follows an instruction reads the sound timer for its own decay only. -/
theorem afterInstr_setSt (t : State) (b : Byte) :
    (afterInstr (t.setSt b)).setSt 0 = (afterInstr t).setSt 0 := by
  cases hfault : t.fault with
  | some f =>
    rw [afterInstr_of_fault hfault, afterInstr_of_fault (t := t.setSt b) hfault]
    rfl
  | none =>
    rw [afterInstr_of_none hfault, afterInstr_of_none (t := t.setSt b) hfault]
    rfl

theorem afterInstr_eq_upToSt {t u : State} (h : u.setSt 0 = t.setSt 0) :
    (afterInstr u).setSt 0 = (afterInstr t).setSt 0 := by
  rw [← afterInstr_setSt u 0, h, afterInstr_setSt]

theorem fetch_setSt (s : State) (b : Byte) : fetch (s.setSt b) = fetch s := rfl

/-- From states that differ in `ST` alone, a step answers states that differ in `ST` alone: the same case of
the step is taken, and each case keeps the difference where it is. -/
theorem step_setSt_eq_upToSt {s t : State} (h : step s = .next t) (b : Byte) :
    ∃ u, step (s.setSt b) = .next u ∧ u.setSt 0 = t.setSt 0 := by
  obtain ⟨hhalt, rfl⟩ | ⟨hrun, f, hf, rfl⟩ | ⟨hrun, op, hf, hd, rfl⟩ | ⟨hrun, op, i, v, hf, hd, he, rfl⟩ :=
    step_cases h
  · obtain ⟨f, hfault⟩ := Option.ne_none_iff_exists'.mp hhalt
    exact ⟨_, step_of_halted (s := t.setSt b) hfault, rfl⟩
  · exact ⟨_, step_of_fetch_error hrun ((fetch_setSt s b).trans hf), rfl⟩
  · exact ⟨_, step_of_unknownOpcode hrun ((fetch_setSt s b).trans hf) hd, rfl⟩
  · obtain ⟨u, hu, hsame⟩ := exec_setSt_eq_upToSt he b
    exact ⟨_, step_of_exec hrun ((fetch_setSt s b).trans hf) hd hu, afterInstr_eq_upToSt hsame⟩

/-- Settles O19: the host's view holds `ST`, a step always answers a next state, and the step from the state
with another `ST` answers the same up to `ST`. -/
theorem soundTimerOnlyAffectsItself : Obligations.SoundTimerOnlyAffectsItself := by
  intro s b
  obtain ⟨t, ht⟩ := step_eq_next s
  obtain ⟨u, hu, hsame⟩ := step_setSt_eq_upToSt ht b
  exact ⟨rfl, t, u, ht, hu, hsame⟩

end Sys2Proof.Machine
end

section
/-! What an instruction does, as a function: the fault its row of the fault table names (60_exceptions.md
R200), or else the state it leaves. The rules of single instructions and of the step are read off it. -/

namespace Sys2Proof.Machine

open Sys2Proof

/-! ### The state an instruction leaves -/

/-- The state an instruction leaves where it meets no fault; `exec_eq` ties it to `exec`. Where it would
fault the value is of no account, so that each arm is one expression in the fields. -/
def completed : Instr → State → State
  | .clearScreen, s => (s.present Framebuffer.blank).advance
  | .ret, s => { s with pc := s.stack.getD (s.sp.val - 1) 0, sp := ⟨s.sp.val - 1, by omega⟩ }
  | .jump nnn, s => s.setPc (addrWord nnn)
  | .call nnn, s =>
    { s with stack := s.stack.setIfInBounds s.sp.val (s.pc + 2), sp := ⟨min (s.sp.val + 1) 16, by omega⟩,
             pc := addrWord nnn }
  | .skipEqImm x kk, s => s.skipIf (s.reg x == kk)
  | .skipNeImm x kk, s => s.skipIf (s.reg x != kk)
  | .skipEqReg x y, s => s.skipIf (s.reg x == s.reg y)
  | .skipNeReg x y, s => s.skipIf (s.reg x != s.reg y)
  | .setImm x kk, s => (s.setReg x kk).advance
  | .addImm x kk, s => (s.setReg x (s.reg x + kk)).advance
  | .setReg x y, s => (s.setReg x (s.reg y)).advance
  | .orReg x y, s => (s.setReg x (s.reg x ||| s.reg y)).advance
  | .andReg x y, s => (s.setReg x (s.reg x &&& s.reg y)).advance
  | .xorReg x y, s => (s.setReg x (s.reg x ^^^ s.reg y)).advance
  | .addReg x y, s => (s.setWithFlag x (s.reg x + s.reg y) (carryOut (s.reg x) (s.reg y))).advance
  | .sub x y, s => (s.setWithFlag x (s.reg x - s.reg y) (noBorrow (s.reg x) (s.reg y))).advance
  | .shr x, s => (s.setWithFlag x (s.reg x >>> 1) (lowBit (s.reg x))).advance
  | .subn x y, s => (s.setWithFlag x (s.reg y - s.reg x) (noBorrow (s.reg y) (s.reg x))).advance
  | .shl x, s => (s.setWithFlag x (s.reg x <<< 1) (highBit (s.reg x))).advance
  | .setI nnn, s => (s.setI (addrWord nnn)).advance
  | .jumpV0 nnn, s => s.setPc (addrWord nnn + byteWord (s.reg 0))
  | .random x kk, s => (randomWith s.randomByte x kk s).nextRandom
  | .draw x y n, s => drawSprite x y n s
  | .skipKeyPressed x, s => s.skipIf (s.pressed (Fin.ofNat 16 (s.reg x).toNat) == true)
  | .skipKeyNotPressed x, s => s.skipIf (s.pressed (Fin.ofNat 16 (s.reg x).toNat) == false)
  | .getDelay x, s => (s.setReg x s.dt).advance
  | .waitKey x, s =>
    match s.lowestPressed with
    | some k => (s.setReg x (BitVec.ofNat 8 k.val)).advance
    | none => s
  | .setDelay x, s => (s.setDt (s.reg x)).advance
  | .setSound x, s => (s.setSt (s.reg x)).advance
  | .addI x, s => (s.setI (s.i + byteWord (s.reg x))).advance
  | .fontAddr x, s => (s.setI (5 * byteWord (s.reg x))).advance
  | .bcd x, s => (s.writeBytes s.i.toNat (bcdDigits (s.reg x))).advance
  | .storeRegs x, s => (s.writeBytes s.i.toNat (s.regBytes x)).advance
  | .loadRegs x, s => (s.loadFrom s.i.toNat (regsUpTo x)).advance

/-- `s` with a fault latched, if there is one, and else `t`. -/
def State.latchOr (s : State) (fault : Option Fault) (t : State) : State :=
  match fault with
  | some f => { s with fault := some f }
  | none => t

/-! ### The instructions that can fault -/

theorem withAddress_next (top : Nat) (s t : State) :
    withAddress top s (.next t) =
      .next (s.latchOr (if 0xFFF < top then some (.addressOutOfRange top) else none) t) := by
  by_cases h : 0xFFF < top
  · rw [withAddress_of_gt h, if_pos h]
    rfl
  · rw [withAddress_of_le (Nat.le_of_not_lt h), if_neg h]
    rfl

theorem exec_ret_eq (s : State) :
    exec .ret s = .next (s.latchOr (faultOf .ret s) (completed .ret s)) := by
  by_cases h : s.sp.val = 0
  · have hpop : s.pop = none := dif_neg (by omega)
    simp only [exec, execReturn, hpop, faultOf, h, if_true]
    rfl
  · have hlt : s.sp.val - 1 < 16 := by omega
    simp only [exec, execReturn, State.pop_of_pos (Nat.pos_of_ne_zero h), faultOf, h, if_false]
    simp [State.latchOr, completed, State.setPc, Vector.getD, hlt]

theorem exec_call_eq (nnn : Addr12) (s : State) :
    exec (.call nnn) s = .next (s.latchOr (faultOf (.call nnn) s) (completed (.call nnn) s)) := by
  by_cases h : s.sp.val = 16
  · have hpush : s.push (s.pc + 2) = none := dif_neg (by omega)
    simp only [exec, execCall, hpush, faultOf, h, if_true]
    rfl
  · have hlt : s.sp.val < 16 := by omega
    have hset : s.stack.set s.sp.val (s.pc + 2) = s.stack.setIfInBounds s.sp.val (s.pc + 2) := by
      ext k hk
      rw [Vector.getElem_set, Vector.getElem_setIfInBounds]
    simp only [exec, execCall, State.push_of_lt hlt, faultOf, h, if_false]
    simpa [State.latchOr, completed, State.setPc] using ⟨hlt, hset⟩

theorem skipOnKey_eq (x : Reg) (wanted : Bool) (s : State) :
    skipOnKey x wanted s =
      .next (s.latchOr (if 15 < (s.reg x).toNat then some (.keyIndexOutOfRange (s.reg x)) else none)
        (s.skipIf (s.pressed (Fin.ofNat 16 (s.reg x).toNat) == wanted))) := by
  by_cases h : 15 < (s.reg x).toNat
  · have hkey : keyCode? (s.reg x) = none := dif_neg (by omega)
    simp only [skipOnKey, hkey, h, if_true]
    rfl
  · have hkey : keyCode? (s.reg x) = some (Fin.ofNat 16 (s.reg x).toNat) := by
      rw [keyCode?, dif_pos (by omega)]
      exact congrArg some (Fin.ext (Nat.mod_eq_of_lt (by omega)).symm)
    simp only [skipOnKey, hkey, h, if_false]
    rfl

/-- A draw with no rows cannot fault (R161, decision D32). -/
theorem exec_draw_zero_eq (x y : Reg) (s : State) :
    exec (.draw x y 0) s = .next (s.latchOr (faultOf (.draw x y 0) s) (completed (.draw x y 0) s)) := rfl

/-- The fault table on a draw with rows, its last row being `m`. -/
theorem faultOf_draw_succ (x y : Reg) (m : Nat) (s : State) :
    faultOf (.draw x y (m + 1)) s =
      if 0xFFF < s.i.toNat + m then some (.addressOutOfRange (s.i.toNat + m))
      else if 2047 < lastCell (s.reg x) (s.reg y) (m + 1) then
        some (.outOfBoundsDraw (lastCell (s.reg x) (s.reg y) (m + 1)))
      else none := by
  simp [faultOf, Nat.add_assoc]

theorem exec_draw_succ_eq (x y : Reg) (m : Nat) (s : State) :
    exec (.draw x y (m + 1)) s =
      .next (s.latchOr (faultOf (.draw x y (m + 1)) s) (completed (.draw x y (m + 1)) s)) := by
  have hexec : exec (.draw x y (m + 1)) s = withAddress (s.i.toNat + m) s
      (if 2047 < lastCell (s.reg x) (s.reg y) (m + 1) then
        raise (.outOfBoundsDraw (lastCell (s.reg x) (s.reg y) (m + 1))) s
      else .next (drawSprite x y (m + 1) s)) := rfl
  rw [hexec, faultOf_draw_succ]
  by_cases haddr : 0xFFF < s.i.toNat + m
  · rw [withAddress_of_gt haddr, if_pos haddr]
    rfl
  · rw [withAddress_of_le (Nat.le_of_not_lt haddr), if_neg haddr]
    split <;> rfl

theorem exec_draw_eq (x y : Reg) (n : Nat) (s : State) :
    exec (.draw x y n) s = .next (s.latchOr (faultOf (.draw x y n) s) (completed (.draw x y n) s)) := by
  cases n with
  | zero => exact exec_draw_zero_eq x y s
  | succ m => exact exec_draw_succ_eq x y m s

theorem exec_waitKey_eq (x : Reg) (s : State) :
    exec (.waitKey x) s = .next (completed (.waitKey x) s) := by
  simp only [exec, execWaitKey, completed]
  cases s.lowestPressed <;> rfl

/-! ### Every instruction -/

/-- WHAT EVERY INSTRUCTION DOES: where the fault table names a fault the same state with the fault latched,
and else the state it leaves. -/
theorem exec_eq (i : Instr) (s : State) : exec i s = .next (s.latchOr (faultOf i s) (completed i s)) := by
  cases i with
  | ret => exact exec_ret_eq s
  | call nnn => exact exec_call_eq nnn s
  | draw x y n => exact exec_draw_eq x y n s
  | skipKeyPressed x => exact skipOnKey_eq x true s
  | skipKeyNotPressed x => exact skipOnKey_eq x false s
  | waitKey x => exact exec_waitKey_eq x s
  | bcd x => exact withAddress_next _ s _
  | storeRegs x => exact withAddress_next _ s _
  | loadRegs x => exact withAddress_next _ s _
  | _ => rfl

/-- An instruction that the fault table gives a fault latches it. -/
theorem exec_of_faultOf_eq_some {i : Instr} {s : State} {f : Fault} (h : faultOf i s = some f) :
    exec i s = .next { s with fault := some f } := by
  rw [exec_eq, h]
  rfl

/-- An instruction that the fault table gives no fault completes. -/
theorem exec_of_faultOf_eq_none {i : Instr} {s : State} (h : faultOf i s = none) :
    exec i s = .next (completed i s) := by
  rw [exec_eq, h]
  rfl

/-- The state an instruction without a fault answers is the one it leaves. -/
theorem eq_completed_of_exec {i : Instr} {s t : State} (h : faultOf i s = none) (he : exec i s = .next t) :
    t = completed i s :=
  Host.Outcome.next.inj (he.symm.trans (exec_of_faultOf_eq_none h))

end Sys2Proof.Machine
end

section
/-! The frame of every instruction (10_state.md R23): what each update of the state leaves unchanged, and what
the access table says of single components. -/

namespace Sys2Proof.Machine

open Sys2Proof

/-! ### The frame of each update -/

section

variable (s : State)

/-- A wider frame. -/
theorem KeepsAllBut.mono {written written' : Component → Prop} {s t : State}
    (h : KeepsAllBut written s t) (hsub : ∀ c, written c → written' c) : KeepsAllBut written' s t :=
  fun c hc => h c fun hw => hc (hsub c hw)

theorem State.setPc_keepsAllBut (w : Word) : KeepsAllBut (fun c => c = .pc) s (s.setPc w) := by
  intro c hc
  cases c with
  | pc => exact absurd rfl hc
  | _ => rfl

theorem State.advance_setDt_keepsAllBut (b : Byte) :
    KeepsAllBut (fun c => c = .pc ∨ c = .delayTimer) s (s.setDt b).advance := by
  intro c hc
  cases c with
  | pc => exact absurd (.inl rfl) hc
  | delayTimer => exact absurd (.inr rfl) hc
  | _ => rfl

theorem State.advance_setSt_keepsAllBut (b : Byte) :
    KeepsAllBut (fun c => c = .pc ∨ c = .soundTimer) s (s.setSt b).advance := by
  intro c hc
  cases c with
  | pc => exact absurd (.inl rfl) hc
  | soundTimer => exact absurd (.inr rfl) hc
  | _ => rfl

/-- The frame of the instructions that write a result and its flag. -/
theorem State.advance_setWithFlag_keepsAllBut (x : Reg) (b : Byte) (flag : Bool) :
    KeepsAllBut (fun c => c = .pc ∨ c = .reg x ∨ c = .reg vf) s (s.setWithFlag x b flag).advance := by
  intro c hc
  cases c with
  | pc => exact absurd (.inl rfl) hc
  | reg r =>
    have hx : r ≠ x := fun e => hc (.inr (.inl (congrArg Component.reg e)))
    have hvf : r ≠ vf := fun e => hc (.inr (.inr (congrArg Component.reg e)))
    simp [Same, State.reg_setWithFlag, hx, hvf]
  | _ => rfl

theorem nextRandom_randomWith_keepsAllBut (r : Byte) (x : Reg) (kk : Byte) :
    KeepsAllBut (fun c => c = .pc ∨ c = .reg x ∨ c = .randIndex) s (randomWith r x kk s).nextRandom := by
  intro c hc
  cases c with
  | pc => exact absurd (.inl rfl) hc
  | randIndex => exact absurd (.inr (.inr rfl)) hc
  | reg q =>
    have hq : q ≠ x := fun e => hc (.inr (.inl (congrArg Component.reg e)))
    exact State.reg_setReg_ne hq s _
  | _ => rfl

/-- Stores change the bytes they name and no others (R45). -/
theorem State.writeBytes_keepsAllBut (a : Nat) (bs : List Byte) :
    KeepsAllBut (InBytes a bs.length) s (s.writeBytes a bs) := by
  intro c hc
  cases c with
  | byte b =>
    have hout : b < a ∨ a + bs.length ≤ b := by
      by_contra hin
      exact hc ⟨by omega, by omega⟩
    exact State.readByte_writeBytes_outside hout s
  | _ =>
    rw [State.writeBytes_eq]
    rfl

theorem State.advance_keepsAllBut : KeepsAllBut (fun c => c = .pc) s s.advance := by
  intro c hc
  cases c with
  | pc => exact absurd rfl hc
  | _ => rfl

/-- Two updates in a row: what neither of them writes is kept. -/
theorem KeepsAllBut.trans {written written' : Component → Prop} {s t u : State}
    (h : KeepsAllBut written s t) (h' : KeepsAllBut written' t u) :
    KeepsAllBut (fun c => written' c ∨ written c) s u := by
  intro c hc
  have hst := h c fun hw => hc (.inr hw)
  have htu := h' c fun hw => hc (.inl hw)
  cases c <;> exact Eq.trans htu hst

/-- Loads change the registers they name and no others. -/
theorem State.loadFrom_keepsAllBut (a : Nat) (x : Reg) :
    KeepsAllBut (InRegsUpTo x) s (s.loadFrom a (regsUpTo x)) := by
  intro c hc
  cases c with
  | reg r =>
    have hr : r ∉ regsUpTo x := fun hmem => hc ((mem_regsUpTo x r).mp hmem)
    exact (State.reg_loadFrom s a _ r).trans (if_neg hr)
  | _ =>
    rw [State.loadFrom_eq]
    rfl

theorem State.advance_present_keepsAllBut (fb : Vector (BitVec 64) 32) :
    KeepsAllBut (fun c => c = .pc ∨ c = .redraw ∨ AnyCell c) s (s.present fb).advance := by
  intro c hc
  cases c with
  | pc => exact absurd (.inl rfl) hc
  | redraw => exact absurd (.inr (.inl rfl)) hc
  | cell k => exact absurd (.inr (.inr trivial)) hc
  | _ => rfl

/-- A sprite toggles cells of its rectangle only (R161). -/
theorem State.inRectangle_of_mem_spriteCells {vx vy : Byte} {n c : Nat}
    (h : c ∈ s.spriteCells vx vy n) : InRectangle vx vy n (.cell c) := by
  obtain ⟨r, hr, col, hcol, -, rfl⟩ := (State.mem_spriteCells s vx vy n c).mp h
  exact ⟨r, col, hr, hcol, (Nat.add_assoc _ _ _).symm⟩

theorem drawSprite_keepsAllBut (x y : Reg) (n : Nat) :
    KeepsAllBut (fun c => c = .pc ∨ c = .reg vf ∨ c = .redraw ∨ InRectangle (s.reg x) (s.reg y) n c)
      s (drawSprite x y n s) := by
  intro c hc
  cases c with
  | pc => exact absurd (.inl rfl) hc
  | redraw => exact absurd (.inr (.inr (.inl rfl))) hc
  | reg r =>
    have hvf : r ≠ vf := fun e => hc (.inr (.inl (congrArg Component.reg e)))
    exact State.reg_setReg_ne hvf _ _
  | cell k =>
    have hk : k ∉ s.spriteCells (s.reg x) (s.reg y) n := fun hmem =>
      hc (.inr (.inr (.inr (s.inRectangle_of_mem_spriteCells hmem))))
    simp [Same, drawSprite_cell, hk]
  | _ => rfl

/-! ### The frame of the instructions -/

theorem completed_ret_keepsAllBut :
    KeepsAllBut (fun c => c = .pc ∨ c = .depth) s (completed .ret s) := by
  intro c hc
  cases c with
  | pc => exact absurd (.inl rfl) hc
  | depth => exact absurd (.inr rfl) hc
  | _ => rfl

theorem completed_call_keepsAllBut (nnn : Addr12) :
    KeepsAllBut (fun c => c = .pc ∨ c = .depth ∨ ∃ k : Fin 16, k.val = s.sp.val ∧ c = .slot k)
      s (completed (.call nnn) s) := by
  intro c hc
  cases c with
  | pc => exact absurd (.inl rfl) hc
  | depth => exact absurd (.inr (.inl rfl)) hc
  | slot k =>
    have hk : s.sp.val ≠ k.val := fun e => hc (.inr (.inr ⟨k, e.symm, rfl⟩))
    simp [Same, completed, hk]
  | _ => rfl

/-- `wait-key` waits, or takes some key. -/
theorem completed_waitKey_cases (x : Reg) :
    completed (.waitKey x) s = s ∨ ∃ b, completed (.waitKey x) s = (s.setReg x b).advance := by
  simp only [completed]
  split
  · exact .inr ⟨_, rfl⟩
  · exact .inl rfl

theorem completed_waitKey_keepsAllBut (x : Reg) :
    KeepsAllBut (fun c => c = .pc ∨ c = .reg x) s (completed (.waitKey x) s) := by
  obtain h | ⟨b, h⟩ := completed_waitKey_cases s x
  · rw [h]
    intro c _
    cases c <;> rfl
  · rw [h]
    exact s.advance_setReg_keepsAllBut x b

theorem completed_store_keepsAllBut (a : Nat) {bs : List Byte} {len : Nat} (hlen : bs.length = len) :
    KeepsAllBut (fun c => c = .pc ∨ InBytes a len c) s (s.writeBytes a bs).advance :=
  hlen ▸ (s.writeBytes_keepsAllBut a bs).trans (State.advance_keepsAllBut _)

/-- R23: what the access table does not let an instruction write it leaves as it was. -/
theorem completed_keepsAllBut (i : Instr) : KeepsAllBut (MayWrite i s) s (completed i s) := by
  cases i with
  | clearScreen => exact s.advance_present_keepsAllBut _
  | ret => exact completed_ret_keepsAllBut s
  | call nnn => exact completed_call_keepsAllBut s nnn
  | jump _ | jumpV0 _ => exact s.setPc_keepsAllBut _
  | skipEqImm _ _ | skipNeImm _ _ | skipEqReg _ _ | skipNeReg _ _ | skipKeyPressed _ | skipKeyNotPressed _ =>
    exact s.skipIf_keepsAllBut_pc _
  | setImm x _ | addImm x _ | setReg x _ | orReg x _ | andReg x _ | xorReg x _ | getDelay x =>
    exact s.advance_setReg_keepsAllBut x _
  | addReg x _ | sub x _ | shr x | subn x _ | shl x => exact s.advance_setWithFlag_keepsAllBut x _ _
  | setI _ | addI _ | fontAddr _ => exact s.advance_setI_keepsAllBut _
  | random x kk => exact nextRandom_randomWith_keepsAllBut s _ x kk
  | draw x y n => exact drawSprite_keepsAllBut s x y n
  | waitKey x => exact completed_waitKey_keepsAllBut s x
  | setDelay _ => exact s.advance_setDt_keepsAllBut _
  | setSound _ => exact s.advance_setSt_keepsAllBut _
  | bcd _ => exact completed_store_keepsAllBut s _ rfl
  | storeRegs x => exact completed_store_keepsAllBut s _ (s.regBytes_length x)
  | loadRegs x => exact (s.loadFrom_keepsAllBut _ x).trans (State.advance_keepsAllBut _)

end

/-- Settles O16: an instruction without a fault leaves the state `completed`, whose frame is its row. -/
theorem everyInstructionKeepsWhatItsRowDoesNotWrite :
    Obligations.EveryInstructionKeepsWhatItsRowDoesNotWrite := by
  intro i s t hfault hexec
  rw [eq_completed_of_exec hfault hexec]
  exact completed_keepsAllBut s i

end Sys2Proof.Machine
end

section
/-! What the access table says of the fault register, VF, the timers and the screen (10_state.md R11, R15,
R16, R19), and the faults of the instructions (60_exceptions.md R200, R207). -/

namespace Sys2Proof.Machine

open Sys2Proof

/-! ### The rows that write a component -/

theorem not_mayWrite_fault (i : Instr) (s : State) : ¬ MayWrite i s .fault := by
  cases i <;> simp [MayWrite, AnyCell, InRectangle, InBytes, InRegsUpTo]

theorem writesFlag_or_vfIsDestination_of_mayWrite {i : Instr} {s : State} (h : MayWrite i s (.reg vf)) :
    WritesFlag i ∨ VfIsDestination i := by
  cases i with
  | loadRegs x =>
    have hle : vf ≤ x := by simpa [MayWrite, InRegsUpTo] using h
    exact .inr (le_antisymm (Fin.le_last x) hle)
  | _ => simp_all [MayWrite, AnyCell, InBytes, WritesFlag, VfIsDestination]

theorem isDisplay_of_mayWrite_redraw {i : Instr} {s : State} (h : MayWrite i s .redraw) : IsDisplay i := by
  cases i <;> simp_all [MayWrite, InBytes, InRegsUpTo, IsDisplay]

theorem isDisplay_of_mayWrite_cell {i : Instr} {s : State} {c : Nat} (h : MayWrite i s (.cell c)) :
    IsDisplay i := by
  cases i <;> simp_all [MayWrite, InBytes, InRegsUpTo, IsDisplay]

theorem eq_setDelay_of_mayWrite {i : Instr} {s : State} (h : MayWrite i s .delayTimer) :
    ∃ x, i = .setDelay x := by
  cases i <;> simp_all [MayWrite, AnyCell, InRectangle, InBytes, InRegsUpTo]

theorem eq_setSound_of_mayWrite {i : Instr} {s : State} (h : MayWrite i s .soundTimer) :
    ∃ x, i = .setSound x := by
  cases i <;> simp_all [MayWrite, AnyCell, InRectangle, InBytes, InRegsUpTo]

theorem eq_ret_or_eq_call_of_mayWrite {i : Instr} {s : State} (h : MayWrite i s .depth) :
    i = .ret ∨ ∃ nnn, i = .call nnn := by
  cases i <;> simp_all [MayWrite, AnyCell, InRectangle, InBytes, InRegsUpTo]

theorem eq_call_of_mayWrite {i : Instr} {s : State} {k : Fin 16} (h : MayWrite i s (.slot k)) :
    ∃ nnn, i = .call nnn := by
  cases i <;> simp_all [MayWrite, AnyCell, InRectangle, InBytes, InRegsUpTo]

/-! ### What the state an instruction leaves holds there -/

section

variable {i : Instr} (s : State)

@[simp] theorem completed_fault (i : Instr) : (completed i s).fault = s.fault :=
  completed_keepsAllBut s i .fault (not_mayWrite_fault i s)

theorem completed_dt (h : ∀ x, i ≠ .setDelay x) : (completed i s).dt = s.dt := by
  refine completed_keepsAllBut s i .delayTimer fun hw => ?_
  obtain ⟨x, hx⟩ := eq_setDelay_of_mayWrite hw
  exact h x hx

theorem completed_st (h : ∀ x, i ≠ .setSound x) : (completed i s).st = s.st := by
  refine completed_keepsAllBut s i .soundTimer fun hw => ?_
  obtain ⟨x, hx⟩ := eq_setSound_of_mayWrite hw
  exact h x hx

theorem completed_draw_of_not_isDisplay (h : ¬ IsDisplay i) : (completed i s).draw = s.draw :=
  completed_keepsAllBut s i .redraw fun hw => h (isDisplay_of_mayWrite_redraw hw)

/-- The display instructions set the redraw flag always (decisions D12, D32). -/
theorem completed_draw_of_isDisplay (h : IsDisplay i) : (completed i s).draw = true := by
  cases i with
  | clearScreen | draw _ _ _ => rfl
  | _ => exact h.elim

/-- Framebuffers that agree in every cell are equal. -/
theorem Framebuffer.eq_of_get_eq {fb fb' : Vector (BitVec 64) 32}
    (h : ∀ c, Framebuffer.get fb c = Framebuffer.get fb' c) : fb = fb' := by
  ext r hr col hcol
  have hcell := h (r * 64 + col)
  have hrow : (r * 64 + col) / 64 = r := by omega
  have hbit : (r * 64 + col) % 64 = col := by omega
  simpa [Framebuffer.get, hrow, hbit, hr, BitVec.getLsbD_eq_getElem hcol] using hcell

theorem completed_fb_of_not_isDisplay (h : ¬ IsDisplay i) : (completed i s).fb = s.fb :=
  Framebuffer.eq_of_get_eq fun c =>
    completed_keepsAllBut s i (.cell c) fun hw => h (isDisplay_of_mayWrite_cell hw)

theorem completed_vf (hflag : ¬ WritesFlag i) (hdest : ¬ VfIsDestination i) :
    (completed i s).reg vf = s.reg vf :=
  completed_keepsAllBut s i (.reg vf) fun hw =>
    (writesFlag_or_vfIsDestination_of_mayWrite hw).elim hflag hdest

theorem State.reg_vf_setWithFlag_cases (x : Reg) (b : Byte) (flag : Bool) :
    (s.setWithFlag x b flag).advance.reg vf = 0 ∨ (s.setWithFlag x b flag).advance.reg vf = 1 := by
  rw [State.advance_reg, State.reg_setWithFlag, if_pos rfl]
  exact flagByte_cases flag

/-- The six flag writers leave 0 or 1 in VF (R11). -/
theorem completed_vf_cases (h : WritesFlag i) : (completed i s).reg vf = 0 ∨ (completed i s).reg vf = 1 := by
  cases i with
  | addReg x _ | sub x _ | shr x | subn x _ | shl x => exact s.reg_vf_setWithFlag_cases x _ _
  | draw x y n => exact drawSprite_vf_cases x y n s
  | _ => exact h.elim

end

/-- Settles O13: the table names the fault an instruction latches, and where it names none the instruction
leaves its state, whose fault register is the old one. -/
theorem faultTableIsExact : Obligations.FaultTableIsExact :=
  fun i s => ⟨fun _ hf => exec_of_faultOf_eq_some hf,
    fun hnone => ⟨completed i s, exec_of_faultOf_eq_none hnone, completed_fault s i⟩⟩

/-- Settles O17: VF is a flag after the six, and the access table gives it to no other instruction unless
it is the destination. -/
theorem onlySixInstructionsWriteVfAsAFlag : Obligations.OnlySixInstructionsWriteVfAsAFlag := by
  intro i s t hfault hexec
  rw [eq_completed_of_exec hfault hexec]
  exact ⟨completed_vf_cases s, completed_vf s⟩

end Sys2Proof.Machine
end

section
/-! The step (30_encoding.md R60): a step of a running core latches a fault and nothing else, or completes
an instruction and decays the timers. -/

namespace Sys2Proof.Machine

open Sys2Proof

/-! ### What a step can do -/

theorem fetch_of_fetchesInstr {s : State} {i : Instr} (h : FetchesInstr s i) :
    ∃ op, fetch s = .ok op ∧ decodeWord op = some i :=
  ⟨_, fetch_of_le h.1, h.2⟩

theorem fetchesInstr_of_fetch {s : State} {op : Word} {i : Instr} (hf : fetch s = .ok op)
    (hd : decodeWord op = some i) : FetchesInstr s i := by
  obtain ⟨hpc, rfl⟩ := fetch_eq_ok hf
  exact ⟨hpc, hd⟩

/-- A step of a running core that fetches an instruction without a fault. -/
theorem step_of_fetchesInstr {s : State} {i : Instr} (hrun : Running s) (hi : FetchesInstr s i)
    (hfault : faultOf i s = none) : step s = .next (completed i s).timerDecay := by
  obtain ⟨op, hf, hd⟩ := fetch_of_fetchesInstr hi
  have hnone : (completed i s).fault = none := (completed_fault s i).trans hrun
  rw [step_of_exec hrun hf hd (exec_of_faultOf_eq_none hfault), afterInstr_of_none hnone]

/-- A step of a running core that fetches an instruction with a fault. -/
theorem step_of_fetchesInstr_fault {s : State} {i : Instr} {f : Fault} (hrun : Running s)
    (hi : FetchesInstr s i) (hfault : faultOf i s = some f) : step s = .next { s with fault := some f } := by
  obtain ⟨op, hf, hd⟩ := fetch_of_fetchesInstr hi
  rw [step_of_exec hrun hf hd (exec_of_faultOf_eq_some hfault), afterInstr_of_fault rfl]

/-- THE OUTCOMES OF A STEP: a halted core stays, and a running one latches a fault or completes the
instruction it fetched, after which the timers decay. -/
theorem step_outcomes {s t : State} (h : step s = .next t) :
    (¬ Running s ∧ t = s) ∨
    (Running s ∧ ∃ f, t = { s with fault := some f }) ∨
    (Running s ∧ ∃ i, FetchesInstr s i ∧ faultOf i s = none ∧ t = (completed i s).timerDecay) := by
  obtain ⟨hhalt, rfl⟩ | ⟨hrun, f, -, rfl⟩ | ⟨hrun, op, -, -, rfl⟩ | ⟨hrun, op, i, u, hf, hd, -, -⟩ :=
    step_cases h
  · exact .inl ⟨hhalt, rfl⟩
  · exact .inr (.inl ⟨hrun, f, rfl⟩)
  · exact .inr (.inl ⟨hrun, _, rfl⟩)
  · have hi := fetchesInstr_of_fetch hf hd
    cases hfault : faultOf i s with
    | some f =>
      exact .inr (.inl ⟨hrun, f,
        Host.Outcome.next.inj (h.symm.trans (step_of_fetchesInstr_fault hrun hi hfault))⟩)
    | none =>
      exact .inr (.inr ⟨hrun, i, hi, hfault,
        Host.Outcome.next.inj (h.symm.trans (step_of_fetchesInstr hrun hi hfault))⟩)

/-! ### The decay (R213) -/

theorem State.timersDecayed_timerDecay (s : State) : TimersDecayed s s.timerDecay := by
  refine ⟨decay_toNat s.dt, decay_toNat s.st, fun c hc => ?_⟩
  cases c with
  | delayTimer => exact absurd (.inl rfl) hc
  | soundTimer => exact absurd (.inr rfl) hc
  | _ => rfl

theorem timersDecayed_afterInstr {u : State} (h : u.fault = none) : TimersDecayed u (afterInstr u) := by
  rw [afterInstr_of_none h]
  exact u.timersDecayed_timerDecay

/-- Settles O11: the step of every state is a next state. -/
theorem stepAlwaysAnswersANextState : Obligations.StepAlwaysAnswersANextState := step_eq_next

/-- Settles O12: a step that completes decays the timers its instruction left, and only `set-delay` and
`set-sound` write one; a step that latched a fault did nothing else. -/
theorem timersDecayOnEveryCompletedStep : Obligations.TimersDecayOnEveryCompletedStep := by
  intro s t hrun hstep
  obtain ⟨hhalt, -⟩ | ⟨-, f, rfl⟩ | ⟨-, i, hi, -, rfl⟩ := step_outcomes hstep
  · exact absurd hrun hhalt
  · exact ⟨nofun, nofun, fun _ => ⟨rfl, rfl⟩⟩
  · refine ⟨fun _ hdelay => ?_, fun _ hsound => ?_, fun hne => ?_⟩
    · rw [State.timerDecay_dt, decay_toNat, completed_dt s fun x hx => hdelay x (hx ▸ hi)]
    · rw [State.timerDecay_st, decay_toNat, completed_st s fun x hx => hsound x (hx ▸ hi)]
    · exact absurd ((completed_fault s i).trans hrun) hne

/-- Settles O14: of the outcomes of a running core's step, only the latched fault holds one. -/
theorem faultsArePrecise : Obligations.FaultsArePrecise := by
  intro s t hrun hstep hne
  obtain ⟨hhalt, -⟩ | ⟨-, f, rfl⟩ | ⟨-, i, -, -, rfl⟩ := step_outcomes hstep
  · exact absurd hrun hhalt
  · rfl
  · exact absurd ((completed_fault s i).trans hrun) hne

/-- Settles O21: of the outcomes of a step only the completed instruction writes more than `FAULT`, and the
access table gives the screen to the display instructions alone. -/
theorem framebufferChangesOnlyByDisplayInstructions :
    Obligations.FramebufferChangesOnlyByDisplayInstructions := by
  intro s t hstep hdisplay
  obtain ⟨-, rfl⟩ | ⟨-, f, rfl⟩ | ⟨-, i, hi, -, rfl⟩ := step_outcomes hstep
  · exact ⟨rfl, rfl⟩
  · exact ⟨rfl, rfl⟩
  · exact ⟨completed_fb_of_not_isDisplay s (hdisplay i hi),
      completed_draw_of_not_isDisplay s (hdisplay i hi)⟩

/-- Settles O9: a fetch with no second byte and a word that does not decode each latch their fault. -/
theorem stepFaultsOnFetchAndDecode : Obligations.StepFaultsOnFetchAndDecode := by
  refine ⟨fun s hrun hpc => ?_, fun s hrun hpc hd => ?_⟩
  · have hfetch : fetch s = .error (.addressOutOfRange (s.pc.toNat + 1)) := if_pos (by omega)
    rw [step_of_fetch_error hrun hfetch, raise_eq]
  · exact step_of_unknownOpcode hrun (fetch_of_le hpc) hd

end Sys2Proof.Machine
end

section
/-! Control flow (40_control_flow.md): the jumps, the stack of return addresses and the skips. -/

namespace Sys2Proof.Machine

open Sys2Proof

theorem byteWord_toNat (b : Byte) : (byteWord b).toNat = b.toNat := BitVec.toNat_setWidth_of_le (by decide)

/-- Where `jump nnn+V0` goes: the sum is below 2^16, so it is not reduced. -/
theorem addrWord_add_byteWord_toNat (nnn : Addr12) (b : Byte) :
    (addrWord nnn + byteWord b).toNat = nnn.toNat + b.toNat := by
  have hnnn := nnn.isLt
  have hb := b.isLt
  rw [BitVec.toNat_add, addrWord_toNat, byteWord_toNat]
  omega

/-- Settles O32: a jump writes `pc` alone, with a word whose number is the address or the sum. -/
theorem jumpsSetPc : Obligations.JumpsSetPc := fun nnn s =>
  ⟨⟨completed (.jump nnn) s, rfl, addrWord_toNat nnn, completed_keepsAllBut s (.jump nnn)⟩,
    ⟨completed (.jumpV0 nnn) s, rfl, addrWord_add_byteWord_toNat nnn (s.reg 0),
      completed_keepsAllBut s (.jumpV0 nnn)⟩⟩

/-! ### The stack of return addresses -/

section

variable {s : State} {k : Fin 16}

/-- The slot below the depth is the address a return goes to. -/
theorem completed_ret_pc (h : s.sp.val = k.val + 1) : (completed .ret s).pc = s.stack[k] := by
  simp [completed, h, Vector.getD]

theorem completed_ret_sp (h : s.sp.val = k.val + 1) : (completed .ret s).sp.val = k.val := by
  simp [completed, h]

theorem completed_call_slot (nnn : Addr12) (h : s.sp.val = k.val) :
    (completed (.call nnn) s).stack[k] = s.pc + 2 := by
  simp [completed, h]

theorem completed_call_sp (nnn : Addr12) (h : s.sp.val = k.val) :
    (completed (.call nnn) s).sp.val = k.val + 1 := by
  have hmin : min (s.sp.val + 1) 16 = k.val + 1 := by omega
  exact hmin

theorem faultOf_ret_of_sp (h : s.sp.val = k.val + 1) : faultOf .ret s = none := if_neg (by omega)

theorem faultOf_call_of_sp (nnn : Addr12) (h : s.sp.val = k.val) : faultOf (.call nnn) s = none :=
  if_neg (by omega)

/-- The frame of a call, the slot named by the depth. -/
theorem completed_call_keepsAllBut_slot (nnn : Addr12) (h : s.sp.val = k.val) :
    KeepsAllBut (fun c => c = .pc ∨ c = .depth ∨ c = .slot k) s (completed (.call nnn) s) := by
  refine (completed_call_keepsAllBut s nnn).mono fun c hw => hw.imp id (.imp id ?_)
  rintro ⟨j, hj, rfl⟩
  rw [Fin.ext (hj.trans h)]

end

/-- Settles O31: with a slot in use a return goes to the address in the top one. -/
theorem returnPopsIntoPc : Obligations.ReturnPopsIntoPc := fun s _ h =>
  ⟨completed .ret s, exec_of_faultOf_eq_none (faultOf_ret_of_sp h), completed_ret_pc h, completed_ret_sp h,
    completed_keepsAllBut s .ret⟩

/-- Settles O33: with a slot free a call leaves the address after it there and goes to `nnn`. -/
theorem callPushesTheReturnAddress : Obligations.CallPushesTheReturnAddress := fun nnn s _ h =>
  ⟨completed (.call nnn) s, exec_of_faultOf_eq_none (faultOf_call_of_sp nnn h), completed_call_slot nnn h,
    completed_call_sp nnn h, addrWord_toNat nnn, completed_call_keepsAllBut_slot nnn h⟩

/-- Settles O34: the call leaves one slot more in use, which holds the address after it, so the return
pops that address and restores the depth. -/
theorem callThenReturnComesBack : Obligations.CallThenReturnComesBack := by
  intro nnn s k h
  have hsp := completed_call_sp nnn h
  refine ⟨_, completed .ret (completed (.call nnn) s), exec_of_faultOf_eq_none (faultOf_call_of_sp nnn h),
    exec_of_faultOf_eq_none (faultOf_ret_of_sp hsp),
    (completed_ret_pc hsp).trans (completed_call_slot nnn h), fun c hc => ?_⟩
  by_cases hdepth : c = .depth
  · subst hdepth
    exact Fin.ext ((completed_ret_sp hsp).trans h.symm)
  · refine (completed_call_keepsAllBut_slot nnn h).trans (completed_ret_keepsAllBut _) c fun hw => hc ?_
    tauto

/-! ### The skips -/

/-- Where a skip on two different bytes leaves `pc`, the bytes compared as numbers. -/
theorem State.skipIf_bne_pc (s : State) (a b : Byte) :
    (s.skipIf (a != b)).pc = if a.toNat = b.toNat then s.pc + 2 else s.pc + 4 := by
  simp only [State.skipIf_pc, bne_iff_ne, BitVec.toNat_inj, apply_ite (s.pc + ·), ne_eq, ite_not]

/-- Settles O36: the three are skips on the comparison of two bytes. -/
theorem registerSkipsCompare : Obligations.RegisterSkipsCompare := fun x y kk s =>
  ⟨⟨completed (.skipNeImm x kk) s, rfl, s.skipIf_bne_pc _ _, completed_keepsAllBut s (.skipNeImm x kk)⟩,
    ⟨completed (.skipEqReg x y) s, rfl, s.skipIf_beq_pc _ _, completed_keepsAllBut s (.skipEqReg x y)⟩,
    ⟨completed (.skipNeReg x y) s, rfl, s.skipIf_bne_pc _ _, completed_keepsAllBut s (.skipNeReg x y)⟩⟩

end Sys2Proof.Machine
end

section
/-! Registers and ALU (41_alu.md): the number each result is, and the flag of the flag writers. -/

namespace Sys2Proof.Machine

open Sys2Proof

section

variable (s : State) (x : Reg) (b : Byte) (flag : Bool)

theorem State.reg_advance_setReg : (s.setReg x b).advance.reg x = b := s.reg_setReg_self x b

/-- The destination of a flag writer, where it is not VF, holds the result (R133). -/
theorem State.reg_advance_setWithFlag (h : x ≠ vf) : (s.setWithFlag x b flag).advance.reg x = b := by
  rw [State.advance_reg, State.reg_setWithFlag, if_neg h, if_pos rfl]

/-- VF holds the flag, whatever the destination (decision D13). -/
theorem State.vf_advance_setWithFlag :
    ((s.setWithFlag x b flag).advance.reg vf).toNat = if flag then 1 else 0 := by
  rw [State.advance_reg, State.reg_setWithFlag, if_pos rfl]
  cases flag <;> rfl

end

/-- Settles O38: a write of the sum, and of `V[y]`, to `V[x]`. -/
theorem addImmAndSetReg : Obligations.AddImmAndSetReg := by
  refine fun x y kk s => ⟨⟨completed (.addImm x kk) s, rfl, ?_, rfl, completed_keepsAllBut s (.addImm x kk)⟩,
    ⟨completed (.setReg x y) s, rfl, s.reg_advance_setReg x _, rfl, completed_keepsAllBut s (.setReg x y)⟩⟩
  exact (congrArg BitVec.toNat (s.reg_advance_setReg x _)).trans (BitVec.toNat_add _ _)

/-- Settles O39: a write of the bitwise operation to `V[x]`. -/
theorem logicIsBitwise : Obligations.LogicIsBitwise := by
  refine fun x y s => ⟨⟨completed (.orReg x y) s, rfl, rfl, fun b _ => ?_,
      completed_keepsAllBut s (.orReg x y)⟩,
    ⟨completed (.andReg x y) s, rfl, rfl, fun b _ => ?_, completed_keepsAllBut s (.andReg x y)⟩,
    ⟨completed (.xorReg x y) s, rfl, rfl, fun b _ => ?_, completed_keepsAllBut s (.xorReg x y)⟩⟩
  · exact (congrArg (·.getLsbD b) (s.reg_advance_setReg x _)).trans BitVec.getLsbD_or
  · exact (congrArg (·.getLsbD b) (s.reg_advance_setReg x _)).trans BitVec.getLsbD_and
  · exact (congrArg (·.getLsbD b) (s.reg_advance_setReg x _)).trans BitVec.getLsbD_xor

/-- Settles O40: the sum as the result and the carry as the flag. -/
theorem addRegSetsTheCarry : Obligations.AddRegSetsTheCarry := by
  refine fun x y s => ⟨completed (.addReg x y) s, rfl, fun hx => ?_, ?_, rfl,
    completed_keepsAllBut s (.addReg x y)⟩
  · exact (congrArg BitVec.toNat (s.reg_advance_setWithFlag x _ _ hx)).trans (BitVec.toNat_add _ _)
  · refine (s.vf_advance_setWithFlag x _ _).trans ?_
    simp only [carryOut, decide_eq_true_eq]

/-- A difference of bytes as numbers: 256 is lent where the subtrahend is the greater. -/
theorem byte_sub_toNat (a b : Byte) : (a - b).toNat = (a.toNat + 256 - b.toNat) % 256 := by
  have hb := b.isLt
  rw [BitVec.toNat_sub]
  omega

/-- A difference to `V[x]` with its flag (R127, R129). -/
theorem State.advance_setWithFlag_sub (s : State) (x : Reg) (a b : Byte) :
    (x ≠ vf → ((s.setWithFlag x (a - b) (noBorrow a b)).advance.reg x).toNat =
      (a.toNat + 256 - b.toNat) % 256) ∧
    ((s.setWithFlag x (a - b) (noBorrow a b)).advance.reg vf).toNat = if b.toNat ≤ a.toNat then 1 else 0 := by
  constructor
  · intro hx
    rw [s.reg_advance_setWithFlag x _ _ hx, byte_sub_toNat]
  · simpa [noBorrow] using s.vf_advance_setWithFlag x (a - b) (noBorrow a b)

/-- Settles O41: the two subtractions are the difference with its flag, the operands in either order. -/
theorem subtractionsSetNoBorrow : Obligations.SubtractionsSetNoBorrow := by
  intro x y s
  obtain ⟨hsub, hsubFlag⟩ := s.advance_setWithFlag_sub x (s.reg x) (s.reg y)
  obtain ⟨hsubn, hsubnFlag⟩ := s.advance_setWithFlag_sub x (s.reg y) (s.reg x)
  exact ⟨⟨completed (.sub x y) s, rfl, hsub, hsubFlag, rfl, completed_keepsAllBut s (.sub x y)⟩,
    ⟨completed (.subn x y) s, rfl, hsubn, hsubnFlag, rfl, completed_keepsAllBut s (.subn x y)⟩⟩

theorem byte_shiftRight_one_toNat (b : Byte) : (b >>> 1).toNat = b.toNat / 2 := by
  simp [Nat.shiftRight_eq_div_pow]

theorem byte_shiftLeft_one_toNat (b : Byte) : (b <<< 1).toNat = b.toNat * 2 % 256 := by
  simp [Nat.shiftLeft_eq]

theorem lowBit_toNat (b : Byte) : (if lowBit b then 1 else 0) = b.toNat % 2 := by
  simp only [lowBit, BitVec.getLsbD, Nat.testBit_zero, decide_eq_true_eq]
  split <;> omega

theorem highBit_toNat (b : Byte) : (if highBit b then 1 else 0) = b.toNat / 128 := by
  have hb := b.isLt
  simp only [highBit, BitVec.getLsbD, Nat.testBit_eq_decide_div_mod_eq, decide_eq_true_eq]
  split <;> omega

/-- Settles O42: the shifted byte as the result, the bit it drops as the flag. -/
theorem shiftsSetTheBitShiftedOut : Obligations.ShiftsSetTheBitShiftedOut := by
  refine fun x s => ⟨⟨completed (.shr x) s, rfl, fun hx => ?_, ?_, rfl, completed_keepsAllBut s (.shr x)⟩,
    ⟨completed (.shl x) s, rfl, fun hx => ?_, ?_, rfl, completed_keepsAllBut s (.shl x)⟩⟩
  · rw [← byte_shiftRight_one_toNat]
    exact congrArg BitVec.toNat (s.reg_advance_setWithFlag x _ _ hx)
  · rw [← lowBit_toNat]
    exact s.vf_advance_setWithFlag x _ _
  · rw [← byte_shiftLeft_one_toNat]
    exact congrArg BitVec.toNat (s.reg_advance_setWithFlag x _ _ hx)
  · rw [← highBit_toNat]
    exact s.vf_advance_setWithFlag x _ _

/-- Settles O43: `random` is the masked write for the byte of the draw, and the masked write is the same for
every byte. -/
theorem randomMasksTheByteDrawn : Obligations.RandomMasksTheByteDrawn := fun x kk s =>
  ⟨⟨completed (.random x kk) s, rfl, s.reg_advance_setReg x _, rfl, rfl,
      completed_keepsAllBut s (.random x kk)⟩,
    fun r => s.reg_advance_setReg x (r &&& kk)⟩

/-- Settles O57: each is a write of one byte, of the timer to `V[x]` or of `V[x]` to the timer. -/
theorem timerMoves : Obligations.TimerMoves := fun x s =>
  ⟨⟨completed (.getDelay x) s, rfl, s.reg_advance_setReg x _, rfl, completed_keepsAllBut s (.getDelay x)⟩,
    ⟨completed (.setDelay x) s, rfl, rfl, rfl, completed_keepsAllBut s (.setDelay x)⟩,
    ⟨completed (.setSound x) s, rfl, rfl, rfl, completed_keepsAllBut s (.setSound x)⟩⟩

/-- Settles O45: a write to `I` of the sum, and of five times the byte, which is below 2^16. -/
theorem addIAndFontAddr : Obligations.AddIAndFontAddr := by
  refine fun x s => ⟨⟨completed (.addI x) s, rfl, ?_, rfl, completed_keepsAllBut s (.addI x)⟩,
    ⟨completed (.fontAddr x) s, rfl, ?_, rfl, completed_keepsAllBut s (.fontAddr x)⟩⟩
  · have hsum : (s.i + byteWord (s.reg x)).toNat = (s.i.toNat + (s.reg x).toNat) % 65536 := by
      rw [BitVec.toNat_add, byteWord_toNat]
    exact hsum
  · have hprod : (5 * byteWord (s.reg x)).toNat = 5 * (s.reg x).toNat := by
      have hb := (s.reg x).isLt
      rw [BitVec.toNat_mul, byteWord_toNat]
      exact Nat.mod_eq_of_lt (show 5 * (s.reg x).toNat < 65536 by omega)
    exact hprod

end Sys2Proof.Machine
end

section
/-! The index and memory instructions (42_index_memory.md): what the stores leave in memory, and what a load
or a fetch then reads. -/

namespace Sys2Proof.Machine

open Sys2Proof

/-- Byte `k` of a store reads back after the advance. -/
theorem State.readByte_advance_writeBytes {s : State} (hw : MemCanonical s) {a k : Nat} {bs : List Byte}
    (ha : a + bs.length ≤ 4096) (hk : k < bs.length) :
    (s.writeBytes a bs).advance.readByte (a + k) = bs[k] :=
  State.readByte_writeBytes_inside hw ha hk

/-- The digits of a byte (R143): what they weigh, and that the last two are digits. -/
theorem bcdDigits_toNat (b : Byte) :
    ∃ h t o : Byte, bcdDigits b = [h, t, o] ∧ b.toNat = 100 * h.toNat + 10 * t.toNat + o.toNat ∧
      t.toNat ≤ 9 ∧ o.toNat ≤ 9 := by
  have hb := b.isLt
  refine ⟨_, _, _, rfl, ?_, ?_, ?_⟩ <;> simp only [BitVec.toNat_ofNat] <;> omega

theorem faultOf_bcd_of_le {x : Reg} {s : State} (h : s.i.toNat + 2 ≤ 0xFFF) : faultOf (.bcd x) s = none :=
  if_neg (by omega)

theorem faultOf_storeRegs_of_le {x : Reg} {s : State} (h : s.i.toNat + x.val ≤ 0xFFF) :
    faultOf (.storeRegs x) s = none := if_neg (by omega)

theorem faultOf_loadRegs_of_le {x : Reg} {s : State} (h : s.i.toNat + x.val ≤ 0xFFF) :
    faultOf (.loadRegs x) s = none := if_neg (by omega)

/-- Settles O46: the three bytes read back as the digits. -/
theorem bcdStoresTheDecimalDigits : Obligations.BcdStoresTheDecimalDigits := by
  intro x s hw hi
  obtain ⟨h, t, o, hdigits, hsum, ht, ho⟩ := bcdDigits_toNat (s.reg x)
  have hstate : completed (.bcd x) s = (s.writeBytes s.i.toNat [h, t, o]).advance := by
    rw [← hdigits]
    rfl
  have hlen : s.i.toNat + [h, t, o].length ≤ 4096 := by
    simp only [List.length_cons, List.length_nil]
    omega
  have h0 : (completed (.bcd x) s).readByte s.i.toNat = h := by
    rw [hstate]
    exact State.readByte_advance_writeBytes hw hlen (k := 0) (by simp)
  have h1 : (completed (.bcd x) s).readByte (s.i.toNat + 1) = t := by
    rw [hstate]
    exact State.readByte_advance_writeBytes hw hlen (k := 1) (by simp)
  have h2 : (completed (.bcd x) s).readByte (s.i.toNat + 2) = o := by
    rw [hstate]
    exact State.readByte_advance_writeBytes hw hlen (k := 2) (by simp)
  refine ⟨completed (.bcd x) s, exec_of_faultOf_eq_none (faultOf_bcd_of_le hi), ?_, ?_, ?_, ?_,
    completed_keepsAllBut s (.bcd x)⟩
  · rw [h0, h1, h2, hsum]
  · rw [h1]
    exact ht
  · rw [h2]
    exact ho
  · rw [hstate, State.advance_pc, State.writeBytes_pc]

/-- After `store-regs` the byte at offset `k` is `V[k]` (R144). -/
theorem readByte_completed_storeRegs {x k : Reg} {s : State} (hw : MemCanonical s)
    (hi : s.i.toNat + x.val ≤ 0xFFF) (hk : k ≤ x) :
    (completed (.storeRegs x) s).readByte (s.i.toNat + k.val) = s.reg k := by
  have hlen := s.regBytes_length x
  have hkx : k.val ≤ x.val := hk
  have hklen : k.val < (s.regBytes x).length := by omega
  have hread := State.readByte_advance_writeBytes hw (show s.i.toNat + (s.regBytes x).length ≤ 4096 by omega)
    hklen
  exact hread.trans (s.regBytes_getElem x k hklen)

/-- Settles O47: each byte of the range reads back. -/
theorem storeRegsStoresTheRange : Obligations.StoreRegsStoresTheRange := fun x s hw hi =>
  ⟨completed (.storeRegs x) s, exec_of_faultOf_eq_none (faultOf_storeRegs_of_le hi),
    fun _ hk => readByte_completed_storeRegs hw hi hk,
    congrArg (· + 2) (s.writeBytes_pc s.i.toNat (s.regBytes x)), completed_keepsAllBut s (.storeRegs x)⟩

/-- After `load-regs` a register of the range holds the byte at its offset (R145). -/
theorem reg_completed_loadRegs {x k : Reg} (s : State) (hk : k ≤ x) :
    (completed (.loadRegs x) s).reg k = s.readByte (s.i.toNat + k.val) :=
  (s.reg_loadFrom s.i.toNat (regsUpTo x) k).trans (if_pos ((mem_regsUpTo x k).mpr hk))

/-- Settles O48: each register of the range is loaded. -/
theorem loadRegsLoadsTheRange : Obligations.LoadRegsLoadsTheRange := by
  refine fun x s hi => ⟨completed (.loadRegs x) s, exec_of_faultOf_eq_none (faultOf_loadRegs_of_le hi),
    fun _ hk => reg_completed_loadRegs s hk, ?_, completed_keepsAllBut s (.loadRegs x)⟩
  rw [completed, State.advance_pc, State.loadFrom_eq]

/-- Settles O49: the load reads the bytes that the store left, at the same `I`. -/
theorem loadRegsRestoresStoredRegs : Obligations.LoadRegsRestoresStoredRegs := by
  intro x s t u hw hi hstore hmem hfont hindex
  have ht := eq_completed_of_exec (faultOf_storeRegs_of_le hi) hstore
  have hui : u.i = s.i := by
    rw [hindex, ht]
    exact s.writeBytes_i s.i.toNat (s.regBytes x)
  have hread : ∀ a, u.readByte a = t.readByte a := fun a => by
    simp only [State.readByte, hmem, hfont]
  refine ⟨completed (.loadRegs x) u, exec_of_faultOf_eq_none (faultOf_loadRegs_of_le (hui ▸ hi)),
    fun k hk => ?_⟩
  rw [reg_completed_loadRegs u hk, hui, hread, ht, readByte_completed_storeRegs hw hi hk]

/-- Settles O50: the fetch reads the two stored bytes, high byte first. -/
theorem storedBytesAreFetchedAtOnce : Obligations.StoredBytesAreFetchedAtOnce := by
  intro x j k s t hw hi hstore hjk hkx hpc
  have ht := eq_completed_of_exec (faultOf_storeRegs_of_le hi) hstore
  have hkxNat : k.val ≤ x.val := hkx
  have hjx : j ≤ x := show j.val ≤ x.val by omega
  have hhi : t.readByte t.pc.toNat = s.reg j := by
    rw [hpc, ht, readByte_completed_storeRegs hw hi hjx]
  have hlo : t.readByte (t.pc.toNat + 1) = s.reg k := by
    rw [hpc, Nat.add_assoc, ← hjk, ht, readByte_completed_storeRegs hw hi hkx]
  refine ⟨_, fetch_of_le (by omega), ?_⟩
  rw [wordOfBytes_toNat, hhi, hlo]

end Sys2Proof.Machine
end

section
/-! The display (43_display.md): the cells that a sprite toggles, by row and column, and the second draw that
toggles them back. -/

namespace Sys2Proof.Machine

open Sys2Proof

/-- Settles O51: the blank framebuffer is presented. -/
theorem clearScreenClearsEveryCell : Obligations.ClearScreenClearsEveryCell := fun s =>
  ⟨completed .clearScreen s, rfl, Framebuffer.get_blank, rfl, rfl, completed_keepsAllBut s .clearScreen⟩

/-- A draw faults unless it has no rows or its bytes and cells are in range (R161). -/
theorem faultOf_draw_of_inRange {x y : Reg} {n : Nat} {s : State}
    (h : n = 0 ∨ (s.i.toNat + n - 1 ≤ 0xFFF ∧
      ((s.reg y).toNat + n - 1) * 64 + (s.reg x).toNat + 7 ≤ 2047)) :
    faultOf (.draw x y n) s = none := by
  simp only [faultOf]
  rw [if_neg (by omega), if_neg (by omega)]

/-- The cell at a row and column of the sprite is one the draw toggles exactly if the sprite bit is 1. -/
theorem State.mem_spriteCells_iff (s : State) (vx vy : Byte) {n r col : Nat} (hr : r < n) (hcol : col < 8) :
    (vy.toNat + r) * 64 + vx.toNat + col ∈ s.spriteCells vx vy n ↔ s.spriteBit r col = true := by
  rw [State.mem_spriteCells, Nat.add_assoc]
  constructor
  · rintro ⟨r', -, col', hcol', hbit, heq⟩
    obtain ⟨rfl, rfl⟩ := cellIndex_inj hcol' hcol heq
    exact hbit
  · exact fun hbit => ⟨r, hr, col, hcol, hbit, rfl⟩

/-- A draw in range XORs each sprite bit into its cell. -/
theorem drawSprite_cell_of_inRange {x y : Reg} {n : Nat} {s : State} {r col : Nat} (hr : r < n) (hcol : col < 8)
    (h : ((s.reg y).toNat + n - 1) * 64 + (s.reg x).toNat + 7 ≤ 2047) :
    (drawSprite x y n s).cell (((s.reg y).toNat + r) * 64 + (s.reg x).toNat + col) =
      (s.cell (((s.reg y).toNat + r) * 64 + (s.reg x).toNat + col) ^^ s.spriteBit r col) := by
  have hlt : ((s.reg y).toNat + r) * 64 + (s.reg x).toNat + col < 2048 := by omega
  rw [drawSprite_cell]
  simp only [hlt, s.mem_spriteCells_iff _ _ hr hcol, decide_true, Bool.true_and, Bool.decide_eq_true]

/-- VF after a draw: whether a sprite bit 1 met a set cell, by row and column. -/
theorem drawSprite_vf_iff (x y : Reg) (n : Nat) (s : State) :
    (drawSprite x y n s).reg vf = 1 ↔ ∃ r col, r < n ∧ col < 8 ∧
      s.cell (((s.reg y).toNat + r) * 64 + (s.reg x).toNat + col) = true ∧ s.spriteBit r col = true := by
  rw [drawSprite_vf]
  constructor
  · rintro ⟨c, hc, hset⟩
    obtain ⟨r, hr, col, hcol, hbit, rfl⟩ := (s.mem_spriteCells _ _ n c).mp hc
    rw [cellIndex, ← Nat.add_assoc] at hset
    exact ⟨r, col, hr, hcol, hset, hbit⟩
  · rintro ⟨r, col, hr, hcol, hset, hbit⟩
    exact ⟨_, (s.mem_spriteCells_iff _ _ hr hcol).mpr hbit, hset⟩

/-- Settles O52: a draw in range completes, and `paint_spec` says what its loop leaves. -/
theorem drawXorsTheSprite : Obligations.DrawXorsTheSprite := by
  intro x y n s h
  refine ⟨completed (.draw x y n) s, exec_of_faultOf_eq_none (faultOf_draw_of_inRange h),
    fun r col hr hcol => drawSprite_cell_of_inRange hr hcol (by omega), drawSprite_vf_cases x y n s,
    drawSprite_vf_iff x y n s, rfl, rfl, completed_keepsAllBut s (.draw x y n)⟩

/-! ### Two draws in succession (R163) -/

section

variable {x y x' y' : Reg} {n : Nat} {s : State}

theorem State.cell_eq_false_of_le (s : State) {c : Nat} (h : 2048 ≤ c) : s.cell c = false :=
  dif_neg (by omega)

theorem eq_cell_of_inRectangle {vx vy : Byte} {n : Nat} {c : Component} (h : InRectangle vx vy n c) :
    ∃ k, c = .cell k := by
  cases c with
  | cell k => exact ⟨k, rfl⟩
  | _ => exact h.elim

/-- The fault of a draw depends on the column, the row and `I` alone. -/
theorem faultOf_draw_congr {t : State} (hx : t.reg x' = s.reg x) (hy : t.reg y' = s.reg y) (hi : t.i = s.i) :
    faultOf (.draw x' y' n) t = faultOf (.draw x y n) s := by
  simp only [faultOf, hx, hy, hi]

/-- The second draw at the same place toggles the same cells back. -/
theorem drawSprite_drawSprite_cell (hx : (drawSprite x y n s).reg x' = s.reg x)
    (hy : (drawSprite x y n s).reg y' = s.reg y) (c : Nat) :
    (drawSprite x' y' n (drawSprite x y n s)).cell c = s.cell c := by
  have hsprite : (drawSprite x y n s).spriteCells (s.reg x) (s.reg y) n =
      s.spriteCells (s.reg x) (s.reg y) n := rfl
  rw [drawSprite_cell, hx, hy, hsprite, drawSprite_cell, Bool.xor_assoc, Bool.xor_self, Bool.xor_false]

/-- The cells a draw turned on are the toggled ones that are set after it. -/
theorem drawSprite_turnedOn_iff (c : Nat) :
    (s.cell c = false ∧ (drawSprite x y n s).cell c = true) ↔
      c ∈ s.spriteCells (s.reg x) (s.reg y) n ∧ (drawSprite x y n s).cell c = true := by
  refine and_congr_left fun hon => ?_
  have hlt : c < 2048 := by
    by_contra hge
    rw [State.cell_eq_false_of_le _ (Nat.le_of_not_lt hge)] at hon
    cases hon
  rw [drawSprite_cell] at hon
  by_cases hc : c ∈ s.spriteCells (s.reg x) (s.reg y) n <;> simp_all

/-- The second draw collides exactly if the first turned a cell on. -/
theorem drawSprite_drawSprite_vf (hx : (drawSprite x y n s).reg x' = s.reg x)
    (hy : (drawSprite x y n s).reg y' = s.reg y) :
    (drawSprite x' y' n (drawSprite x y n s)).reg vf = 1 ↔
      ∃ c, s.cell c = false ∧ (drawSprite x y n s).cell c = true := by
  rw [drawSprite_vf, hx, hy]
  exact exists_congr fun c => (drawSprite_turnedOn_iff c).symm

theorem drawSprite_drawSprite_keepsAllBut (hx : (drawSprite x y n s).reg x' = s.reg x)
    (hy : (drawSprite x y n s).reg y' = s.reg y) :
    KeepsAllBut (fun c => c = .pc ∨ c = .reg vf ∨ c = .redraw) s
      (drawSprite x' y' n (drawSprite x y n s)) := by
  intro c hc
  by_cases hcell : ∃ k, c = .cell k
  · obtain ⟨k, rfl⟩ := hcell
    exact drawSprite_drawSprite_cell hx hy k
  · refine (drawSprite_keepsAllBut s x y n).trans (drawSprite_keepsAllBut _ x' y' n) c fun hw => ?_
    have hrect : ∀ vx vy, ¬ InRectangle vx vy n c := fun _ _ h => hcell (eq_cell_of_inRectangle h)
    simp only [hrect, or_false, or_self] at hw
    exact hc hw

end

/-- Settles O53: the second draw meets no fault where the first met none, toggles the same cells and collides
with those the first turned on. -/
theorem drawTwiceRestoresTheScreen : Obligations.DrawTwiceRestoresTheScreen := by
  intro x y x' y' n s t hfault hexec hx hy
  obtain rfl := eq_completed_of_exec hfault hexec
  have hfault' : faultOf (.draw x' y' n) (drawSprite x y n s) = none :=
    (faultOf_draw_congr hx hy rfl).trans hfault
  exact ⟨completed (.draw x' y' n) (drawSprite x y n s), exec_of_faultOf_eq_none hfault',
    drawSprite_drawSprite_cell hx hy, drawSprite_vf_cases x y n s, drawSprite_vf_cases x' y' n _,
    drawSprite_drawSprite_vf hx hy, drawSprite_drawSprite_keepsAllBut hx hy⟩

end Sys2Proof.Machine
end

section
/-! Keys and timers (44_keys_timers.md), and the steps that only decay the timers. -/

namespace Sys2Proof.Machine

open Sys2Proof

section

variable {x : Reg} {k : KeyCode} {s : State}

theorem ofNat_eq_of_toNat_eq {b : Byte} (h : b.toNat = k.val) : Fin.ofNat 16 b.toNat = k :=
  Fin.ext (by simp [h])

theorem completed_skipKeyPressed_pc (h : (s.reg x).toNat = k.val) :
    (completed (.skipKeyPressed x) s).pc = if s.pressed k = true then s.pc + 4 else s.pc + 2 := by
  simp only [completed, ofNat_eq_of_toNat_eq h, State.skipIf_pc]
  cases s.pressed k <;> rfl

theorem completed_skipKeyNotPressed_pc (h : (s.reg x).toNat = k.val) :
    (completed (.skipKeyNotPressed x) s).pc = if s.pressed k = true then s.pc + 2 else s.pc + 4 := by
  simp only [completed, ofNat_eq_of_toNat_eq h, State.skipIf_pc]
  cases s.pressed k <;> rfl

theorem allRegs_split (k : KeyCode) : allRegs = allRegs.take k.val ++ k :: allRegs.drop (k.val + 1) := by
  revert k
  decide

theorem lt_of_mem_take_allRegs {j k : KeyCode} (h : j ∈ allRegs.take k.val) : j < k := by
  revert j k
  decide

/-- The lowest pressed key is the one found (R173). -/
theorem State.lowestPressed_eq_some (hk : s.pressed k = true) (hlow : ∀ j, j < k → s.pressed j = false) :
    s.lowestPressed = some k := by
  refine List.find?_eq_some_iff_append.mpr ⟨hk, _, _, allRegs_split k, fun j hj => ?_⟩
  rw [hlow j (lt_of_mem_take_allRegs hj)]
  rfl

theorem completed_waitKey_of_none (h : ∀ k, s.pressed k = false) : completed (.waitKey x) s = s := by
  simp only [completed, (s.lowestPressed_eq_none).mpr h]

theorem completed_waitKey_of_lowest (hk : s.pressed k = true) (hlow : ∀ j, j < k → s.pressed j = false) :
    completed (.waitKey x) s = (s.setReg x (BitVec.ofNat 8 k.val)).advance := by
  simp only [completed, State.lowestPressed_eq_some hk hlow]

theorem keyCode_toNat (k : KeyCode) : (BitVec.ofNat 8 k.val).toNat = k.val :=
  Nat.mod_eq_of_lt (show k.val < 256 by omega)

end

/-- Settles O54: where `V[x]` names a key the skips do not fault, and test its flag. -/
theorem keySkipsTestTheKeyNamed : Obligations.KeySkipsTestTheKeyNamed := by
  intro x k s h
  have hle : ¬ 15 < (s.reg x).toNat := by omega
  exact ⟨⟨completed (.skipKeyPressed x) s, exec_of_faultOf_eq_none (if_neg hle),
      completed_skipKeyPressed_pc h, completed_keepsAllBut s (.skipKeyPressed x)⟩,
    ⟨completed (.skipKeyNotPressed x) s, exec_of_faultOf_eq_none (if_neg hle),
      completed_skipKeyNotPressed_pc h, completed_keepsAllBut s (.skipKeyNotPressed x)⟩⟩

/-- Settles O55: with no key pressed `wait-key` leaves its own state, and else the write of the lowest code. -/
theorem waitKeyTakesTheLowestKey : Obligations.WaitKeyTakesTheLowestKey := by
  refine fun x s => ⟨fun hnone => ?_, fun k hk hlow => ?_⟩
  · rw [exec_waitKey_eq, completed_waitKey_of_none hnone]
  · refine ⟨_, (exec_waitKey_eq x s).trans (congrArg _ (completed_waitKey_of_lowest hk hlow)), ?_, rfl,
      s.advance_setReg_keepsAllBut x _⟩
    rw [State.reg_advance_setReg, keyCode_toNat]

/-- Settles O56: the instruction leaves its own state, so the step leaves that with the timers decayed. -/
theorem waitingStepOnlyDecaysTheTimers : Obligations.WaitingStepOnlyDecaysTheTimers := by
  intro x s hrun hi hnone
  refine ⟨_, step_of_fetchesInstr hrun hi rfl, ?_⟩
  rw [completed_waitKey_of_none hnone]
  exact s.timersDecayed_timerDecay

/-- Settles O58: the step decays the timer that its instruction left. -/
theorem setTimersAreOneLessAfterTheStep : Obligations.SetTimersAreOneLessAfterTheStep := fun x s hrun =>
  ⟨fun hi => ⟨_, step_of_fetchesInstr hrun hi rfl, decay_toNat (s.reg x)⟩,
    fun hi => ⟨_, step_of_fetchesInstr hrun hi rfl, decay_toNat (s.reg x)⟩,
    fun hi => ⟨_, step_of_fetchesInstr hrun hi rfl, s.reg_advance_setReg x s.dt, decay_toNat s.dt⟩⟩

/-- Settles O59: a jump to `pc` leaves its own state, and the decay leaves `pc` and memory. -/
theorem spinningOnlyDecaysTheTimers : Obligations.SpinningOnlyDecaysTheTimers := by
  rintro s ⟨hrun, nnn, hi, hpc⟩
  have hself : completed (.jump nnn) s = s := by
    rw [completed, ← hpc]
    rfl
  refine ⟨s.timerDecay, ?_, s.timersDecayed_timerDecay, hrun, nnn, hi, hpc⟩
  rw [step_of_fetchesInstr hrun hi rfl, hself]

end Sys2Proof.Machine
end

section
/-! Noninterference: the redraw flag, the random count and the stack slots not in use (10_state.md R14, R16,
60_exceptions.md R217, R218) change nothing else. -/

namespace Sys2Proof.Machine

open Sys2Proof

/-! ### Steps from related states -/

/-- A relation that a step keeps: related states halt, fetch and fault alike, and each part of the step
leads to related states. -/
structure StepCongr (R : State → State → Prop) : Prop where
  fault_eq : ∀ {s s'}, R s s' → s'.fault = s.fault
  fetch_eq : ∀ {s s'}, R s s' → fetch s' = fetch s
  faultOf_eq : ∀ {s s'} (i : Instr), R s s' → faultOf i s' = faultOf i s
  latch : ∀ {s s'} (f : Fault), R s s' → R { s with fault := some f } { s' with fault := some f }
  complete : ∀ {s s'} (i : Instr), R s s' → faultOf i s = none → R (completed i s) (completed i s')
  decay : ∀ {s s'}, R s s' → R s.timerDecay s'.timerDecay

/-- From states so related every step answers states so related. -/
theorem StepCongr.step_related {R : State → State → Prop} (h : StepCongr R) {s s' : State} (hR : R s s') :
    ∃ t t', step s = .next t ∧ step s' = .next t' ∧ R t t' := by
  have hfault := h.fault_eq hR
  have hfetch := h.fetch_eq hR
  cases hs : s.fault with
  | some f => exact ⟨s, s', step_of_halted hs, step_of_halted (hfault.trans hs), hR⟩
  | none =>
    have hrun' := hfault.trans hs
    cases hf : fetch s with
    | error f =>
      exact ⟨_, _, step_of_fetch_error hs hf, step_of_fetch_error hrun' (hfetch.trans hf), h.latch f hR⟩
    | ok op =>
      have hf' := hfetch.trans hf
      cases hd : decodeWord op with
      | none =>
        exact ⟨_, _, step_of_unknownOpcode hs hf hd, step_of_unknownOpcode hrun' hf' hd, h.latch _ hR⟩
      | some i =>
        have hi := fetchesInstr_of_fetch hf hd
        have hi' := fetchesInstr_of_fetch hf' hd
        have hfaultOf := h.faultOf_eq i hR
        cases hif : faultOf i s with
        | some f =>
          exact ⟨_, _, step_of_fetchesInstr_fault hs hi hif,
            step_of_fetchesInstr_fault hrun' hi' (hfaultOf.trans hif), h.latch f hR⟩
        | none =>
          exact ⟨_, _, step_of_fetchesInstr hs hi hif, step_of_fetchesInstr hrun' hi' (hfaultOf.trans hif),
            h.decay (h.complete i hR hif)⟩

/-! ### Changes that the memory instructions and `wait-key` hand on -/

/-- A change of the state that touches nothing the instructions on memory, registers and keys read or write:
it commutes with their operations. -/
structure Bystander (f : State → State) : Prop where
  reg : ∀ s x, (f s).reg x = s.reg x
  index : ∀ s, (f s).i = s.i
  lowestPressed : ∀ s, (f s).lowestPressed = s.lowestPressed
  readByte : ∀ s a, (f s).readByte a = s.readByte a
  setReg : ∀ s x b, (f s).setReg x b = f (s.setReg x b)
  writeByte : ∀ s a b, (f s).writeByte a b = f (s.writeByte a b)
  advance : ∀ s, (f s).advance = f s.advance

section

variable {f : State → State} (hf : Bystander f) (s : State)
include hf

theorem Bystander.writeBytes (a : Nat) (bs : List Byte) : (f s).writeBytes a bs = f (s.writeBytes a bs) := by
  induction bs generalizing s a with
  | nil => rfl
  | cons b rest ih =>
    simp only [State.writeBytes, hf.writeByte]
    exact ih (s.writeByte a b) (a + 1)

theorem Bystander.loadFrom (a : Nat) (ks : List Reg) : (f s).loadFrom a ks = f (s.loadFrom a ks) := by
  induction ks generalizing s with
  | nil => rfl
  | cons k rest ih =>
    simp only [State.loadFrom, hf.readByte, hf.setReg]
    exact ih (s.setReg k (s.readByte (a + k.val)))

theorem Bystander.completed_waitKey (x : Reg) : completed (.waitKey x) (f s) = f (completed (.waitKey x) s) := by
  simp only [completed, hf.lowestPressed]
  cases s.lowestPressed with
  | some k => exact (congrArg State.advance (hf.setReg s x _)).trans (hf.advance _)
  | none => rfl

theorem Bystander.completed_bcd (x : Reg) : completed (.bcd x) (f s) = f (completed (.bcd x) s) := by
  simp only [completed, hf.reg, hf.index, hf.writeBytes, hf.advance]

theorem Bystander.completed_storeRegs (x : Reg) :
    completed (.storeRegs x) (f s) = f (completed (.storeRegs x) s) := by
  have hbytes : (f s).regBytes x = s.regBytes x := List.map_congr_left fun k _ => hf.reg s k
  simp only [completed, hbytes, hf.index, hf.writeBytes, hf.advance]

theorem Bystander.completed_loadRegs (x : Reg) :
    completed (.loadRegs x) (f s) = f (completed (.loadRegs x) s) := by
  simp only [completed, hf.index, hf.loadFrom, hf.advance]

end

/-! ### The redraw flag -/

/-- `s` with the redraw flag `b`. -/
def State.withDraw (b : Bool) (s : State) : State := { s with draw := b }

theorem State.withDraw_bystander (b : Bool) : Bystander (State.withDraw b) := by
  constructor <;> intros <;> rfl

theorem faultOf_withDraw (i : Instr) (b : Bool) (s : State) : faultOf i (s.withDraw b) = faultOf i s := by
  cases i <;> rfl

/-- A display instruction overwrites the redraw flag. -/
theorem completed_withDraw_of_isDisplay {i : Instr} (h : IsDisplay i) (b : Bool) (s : State) :
    completed i (s.withDraw b) = completed i s := by
  cases i with
  | clearScreen | draw _ _ _ => rfl
  | _ => exact h.elim

/-- Every other instruction hands the redraw flag on. -/
theorem completed_withDraw_of_not_isDisplay {i : Instr} (h : ¬ IsDisplay i) (b : Bool) (s : State) :
    completed i (s.withDraw b) = (completed i s).withDraw b := by
  have hb := State.withDraw_bystander b
  cases i with
  | clearScreen | draw _ _ _ => exact absurd trivial h
  | waitKey x => exact hb.completed_waitKey s x
  | bcd x => exact hb.completed_bcd s x
  | storeRegs x => exact hb.completed_storeRegs s x
  | loadRegs x => exact hb.completed_loadRegs s x
  | _ => rfl

/-- The two states differ in the redraw flag at most. -/
def SameButDraw (s s' : State) : Prop := ∃ b, s' = s.withDraw b

theorem SameButDraw.clearRedraw_eq {s s' : State} (h : SameButDraw s s') : s'.clearRedraw = s.clearRedraw := by
  obtain ⟨b, rfl⟩ := h
  rfl

theorem SameButDraw.stepCongr : StepCongr SameButDraw where
  fault_eq := by
    rintro s _ ⟨b, rfl⟩
    rfl
  fetch_eq := by
    rintro s _ ⟨b, rfl⟩
    rfl
  faultOf_eq := by
    rintro s _ i ⟨b, rfl⟩
    exact faultOf_withDraw i b s
  latch := by
    rintro s _ f ⟨b, rfl⟩
    exact ⟨b, rfl⟩
  complete := by
    rintro s _ i ⟨b, rfl⟩ -
    by_cases hi : IsDisplay i
    · exact ⟨(completed i s).draw, completed_withDraw_of_isDisplay hi b s⟩
    · exact ⟨b, completed_withDraw_of_not_isDisplay hi b s⟩
  decay := by
    rintro s _ ⟨b, rfl⟩
    exact ⟨b, rfl⟩

/-- No step clears the redraw flag. -/
theorem step_draw {s t : State} (h : step s = .next t) (hdraw : s.draw = true) : t.draw = true := by
  obtain ⟨-, rfl⟩ | ⟨-, f, rfl⟩ | ⟨-, i, -, -, rfl⟩ := step_outcomes h
  · exact hdraw
  · exact hdraw
  · by_cases hi : IsDisplay i
    · exact completed_draw_of_isDisplay s hi
    · exact (completed_draw_of_not_isDisplay s hi).trans hdraw

theorem State.clearRedraw_keepsAllBut (s : State) : KeepsAllBut (fun c => c = .redraw) s s.clearRedraw := by
  intro c hc
  cases c with
  | redraw => exact absurd rfl hc
  | _ => rfl

/-- Settles O20: the access table and the two display instructions say who writes `DRAW`, and a step keeps
the relation of states that differ in it. -/
theorem redrawFlagIsSetByTheCoreAndClearedByTheHost :
    Obligations.RedrawFlagIsSetByTheCoreAndClearedByTheHost := by
  refine ⟨fun i s t hfault hexec => ?_, fun s t => step_draw, fun s b => ?_,
    fun s => ⟨rfl, s.clearRedraw_keepsAllBut⟩⟩
  · rw [eq_completed_of_exec hfault hexec]
    exact ⟨completed_draw_of_isDisplay s, completed_draw_of_not_isDisplay s⟩
  · obtain ⟨t, u, ht, hu, hsame⟩ := SameButDraw.stepCongr.step_related (s := s) ⟨b, rfl⟩
    exact ⟨t, u, ht, hu, hsame.clearRedraw_eq⟩

/-! ### The random count -/

/-- `s` with `k` random bytes drawn. -/
def State.withRandIndex (k : Nat) (s : State) : State := { s with randIndex := k }

theorem State.withRandIndex_bystander (k : Nat) : Bystander (State.withRandIndex k) := by
  constructor <;> intros <;> rfl

theorem faultOf_withRandIndex (i : Instr) (k : Nat) (s : State) :
    faultOf i (s.withRandIndex k) = faultOf i s := by
  cases i <;> rfl

theorem completed_withRandIndex {i : Instr} (h : ∀ x kk, i ≠ .random x kk) (k : Nat) (s : State) :
    completed i (s.withRandIndex k) = (completed i s).withRandIndex k := by
  have hk := State.withRandIndex_bystander k
  cases i with
  | random x kk => exact absurd rfl (h x kk)
  | waitKey x => exact hk.completed_waitKey s x
  | bcd x => exact hk.completed_bcd s x
  | storeRegs x => exact hk.completed_storeRegs s x
  | loadRegs x => exact hk.completed_loadRegs s x
  | _ => rfl

/-- Settles O23: neither the fault nor the state an instruction leaves depends on the count. -/
theorem onlyRandomReadsTheRandomByte : Obligations.OnlyRandomReadsTheRandomByte := by
  intro i s k h
  change exec i (s.withRandIndex k) = mapNext (State.withRandIndex k) (exec i s)
  rw [exec_eq, exec_eq, faultOf_withRandIndex, completed_withRandIndex h]
  cases faultOf i s <;> rfl

/-! ### The stack slots not in use (decision D29) -/

/-- `s` with the stack slots `slots`. -/
def State.withStack (slots : Vector Word 16) (s : State) : State := { s with stack := slots }

theorem State.withStack_bystander (slots : Vector Word 16) : Bystander (State.withStack slots) := by
  constructor <;> intros <;> rfl

theorem faultOf_withStack (i : Instr) (slots : Vector Word 16) (s : State) :
    faultOf i (s.withStack slots) = faultOf i s := by
  cases i <;> rfl

/-- An instruction other than `return` and `call` hands the slots on. -/
theorem completed_withStack {i : Instr} (hret : i ≠ .ret) (hcall : ∀ nnn, i ≠ .call nnn)
    (slots : Vector Word 16) (s : State) :
    completed i (s.withStack slots) = (completed i s).withStack slots := by
  have hb := State.withStack_bystander slots
  cases i with
  | ret => exact absurd rfl hret
  | call nnn => exact absurd rfl (hcall nnn)
  | waitKey x => exact hb.completed_waitKey s x
  | bcd x => exact hb.completed_bcd s x
  | storeRegs x => exact hb.completed_storeRegs s x
  | loadRegs x => exact hb.completed_loadRegs s x
  | _ => rfl

/-- The depth is kept by all but `return` and `call`. -/
theorem completed_sp {i : Instr} (hret : i ≠ .ret) (hcall : ∀ nnn, i ≠ .call nnn) (s : State) :
    (completed i s).sp = s.sp := by
  refine completed_keepsAllBut s i .depth fun hw => ?_
  obtain rfl | ⟨nnn, rfl⟩ := eq_ret_or_eq_call_of_mayWrite hw
  · exact hret rfl
  · exact hcall nnn rfl

/-- The slots in use are those of `s`. -/
def AgreesBelowDepth (s : State) (slots : Vector Word 16) : Prop :=
  ∀ k : Fin 16, k.val < s.sp.val → slots[k] = s.stack[k]

/-- A state is its components: where all but the slots are the same, and memory is the same list, the slots
are all that changed. -/
theorem State.eq_withStack_of_same {s s' : State} (h : ∀ c, (∀ k : Fin 16, c ≠ .slot k) → Same s s' c)
    (hmem : s'.mem = s.mem) : s' = s.withStack s'.stack := by
  have hv : s'.v = s.v := Vector.ext fun r hr => h (.reg ⟨r, hr⟩) nofun
  have hkey : s'.key = s.key := Vector.ext fun k hk => h (.key ⟨k, hk⟩) nofun
  have hfb : s'.fb = s.fb := Framebuffer.eq_of_get_eq fun c => h (.cell c) nofun
  have hi : s'.i = s.i := h .index nofun
  have hpc : s'.pc = s.pc := h .pc nofun
  have hsp : s'.sp = s.sp := h .depth nofun
  have hdt : s'.dt = s.dt := h .delayTimer nofun
  have hst : s'.st = s.st := h .soundTimer nofun
  have hdraw : s'.draw = s.draw := h .redraw nofun
  have hfault : s'.fault = s.fault := h .fault nofun
  have hfont : s'.font = s.font := h .font nofun
  have hrand : s'.randIndex = s.randIndex := h .randIndex nofun
  rw [State.withStack, ← hv, ← hi, ← hpc, ← hsp, ← hdt, ← hst, ← hmem, ← hfb, ← hkey, ← hdraw, ← hfault,
    ← hfont, ← hrand]

/-- States that differ in slots not in use, as an update of the slots. -/
theorem sameButStaleSlots_iff {s s' : State} :
    SameButStaleSlots s s' ↔ ∃ slots, AgreesBelowDepth s slots ∧ s' = s.withStack slots := by
  constructor
  · rintro ⟨hkeep, hmem⟩
    refine ⟨s'.stack, fun k hk => hkeep (.slot k) ?_, State.eq_withStack_of_same (fun c hc => ?_) hmem⟩
    · rintro ⟨j, hj, e⟩
      cases e
      exact absurd hk (Nat.not_lt.mpr hj)
    · exact hkeep c fun ⟨k, _, e⟩ => hc k e
  · rintro ⟨slots, hagree, rfl⟩
    refine ⟨fun c hc => ?_, rfl⟩
    cases c with
    | slot k =>
      refine hagree k ?_
      by_contra hge
      exact hc ⟨k, Nat.le_of_not_lt hge, rfl⟩
    | _ => rfl

/-- `return` reads the slot below the depth only, and leaves fewer slots in use. -/
theorem completed_ret_withStack {s : State} {slots : Vector Word 16} (h : AgreesBelowDepth s slots)
    (hfault : faultOf .ret s = none) :
    AgreesBelowDepth (completed .ret s) slots ∧
      completed .ret (s.withStack slots) = (completed .ret s).withStack slots := by
  have hpos : s.sp.val ≠ 0 := by
    intro h0
    simp [faultOf, h0] at hfault
  have hlt : s.sp.val - 1 < 16 := by omega
  have htop : slots.getD (s.sp.val - 1) 0 = s.stack.getD (s.sp.val - 1) 0 := by
    have hslot := h ⟨s.sp.val - 1, hlt⟩ (Nat.sub_one_lt hpos)
    simpa [Vector.getD, hlt] using hslot
  refine ⟨fun k hk => h k (lt_of_lt_of_le hk (Nat.sub_le _ _)), ?_⟩
  simp only [completed, State.withStack, htop]

/-- `call` writes the slot that comes into use. -/
theorem completed_call_withStack {s : State} {slots : Vector Word 16} (nnn : Addr12)
    (h : AgreesBelowDepth s slots) :
    AgreesBelowDepth (completed (.call nnn) s) (slots.setIfInBounds s.sp.val (s.pc + 2)) ∧
      completed (.call nnn) (s.withStack slots) =
        (completed (.call nnn) s).withStack (slots.setIfInBounds s.sp.val (s.pc + 2)) := by
  refine ⟨fun k hk => ?_, rfl⟩
  have hk' : k.val < min (s.sp.val + 1) 16 := hk
  by_cases hnew : s.sp.val = k.val
  · simp [completed, hnew]
  · have hold := h k (by omega)
    simpa [completed, hnew] using hold

theorem sameButStaleSlots_completed {s s' : State} (i : Instr) (h : SameButStaleSlots s s')
    (hfault : faultOf i s = none) : SameButStaleSlots (completed i s) (completed i s') := by
  obtain ⟨slots, hagree, rfl⟩ := sameButStaleSlots_iff.mp h
  rw [sameButStaleSlots_iff]
  by_cases hret : i = .ret
  · subst hret
    exact ⟨slots, completed_ret_withStack hagree hfault⟩
  · by_cases hcall : ∃ nnn, i = .call nnn
    · obtain ⟨nnn, rfl⟩ := hcall
      exact ⟨_, completed_call_withStack nnn hagree⟩
    · have hcall' : ∀ nnn, i ≠ .call nnn := fun nnn e => hcall ⟨nnn, e⟩
      have hself : completed i s = (completed i s).withStack s.stack :=
        completed_withStack hret hcall' s.stack s
      refine ⟨slots, fun k hk => ?_, completed_withStack hret hcall' slots s⟩
      rw [completed_sp hret hcall' s] at hk
      rw [hself]
      exact hagree k hk

theorem SameButStaleSlots.stepCongr : StepCongr SameButStaleSlots where
  fault_eq h := h.1 .fault nofun
  fetch_eq h := by
    obtain ⟨slots, -, rfl⟩ := sameButStaleSlots_iff.mp h
    rfl
  faultOf_eq i h := by
    obtain ⟨slots, -, rfl⟩ := sameButStaleSlots_iff.mp h
    exact faultOf_withStack i slots _
  latch f h := by
    obtain ⟨slots, hagree, rfl⟩ := sameButStaleSlots_iff.mp h
    exact sameButStaleSlots_iff.mpr ⟨slots, hagree, rfl⟩
  complete i h hfault := sameButStaleSlots_completed i h hfault
  decay h := by
    obtain ⟨slots, hagree, rfl⟩ := sameButStaleSlots_iff.mp h
    exact sameButStaleSlots_iff.mpr ⟨slots, hagree, rfl⟩

/-- Settles O22: only `return` and `call` touch the slots, the one reads a slot in use and the other writes
the slot that comes into use; so a step keeps the relation. -/
theorem staleStackSlotsAreUnobservable : Obligations.StaleStackSlotsAreUnobservable :=
  fun _ _ h => SameButStaleSlots.stepCongr.step_related h

end Sys2Proof.Machine
end

section
/-! The invariant of every run (10_state.md R12): memory canonical, `pc` and the return addresses in bounds;
then what the host's operations keep and leave (60_exceptions.md R215, 70_reset_and_hazards.md R240, R242). -/

namespace Sys2Proof.Machine

open Sys2Proof

/-! ### The invariant, instruction by instruction -/

section

variable {s : State}

theorem memCanonical_of_eq {t : State} (hfont : t.font = s.font) (hmem : t.mem = s.mem)
    (h : MemCanonical s) : MemCanonical t := by
  unfold MemCanonical
  rw [hfont, hmem]
  exact h

/-- A store within memory keeps it canonical. -/
theorem memCanonical_advance_writeBytes (h : MemCanonical s) {a : Nat} {bs : List Byte}
    (ha : a + bs.length ≤ 4096) : MemCanonical (s.writeBytes a bs).advance :=
  State.wf_writeBytes h ha

theorem State.loadFrom_mem (s : State) (a : Nat) (ks : List Reg) : (s.loadFrom a ks).mem = s.mem := by
  rw [State.loadFrom_eq]

theorem State.loadFrom_font (s : State) (a : Nat) (ks : List Reg) : (s.loadFrom a ks).font = s.font := by
  rw [State.loadFrom_eq]

theorem le_of_ite_lt_eq_none {n m : Nat} {f : Fault} (h : (if n < m then some f else none) = none) :
    m ≤ n := by
  by_contra hlt
  rw [if_pos (Nat.lt_of_not_le hlt)] at h
  cases h

/-- An instruction without a fault keeps memory canonical: the two that store have checked their bounds. -/
theorem memCanonical_completed {i : Instr} (h : MemCanonical s) (hfault : faultOf i s = none) :
    MemCanonical (completed i s) := by
  cases i with
  | bcd x =>
    have hle : s.i.toNat + 2 ≤ 0xFFF := le_of_ite_lt_eq_none hfault
    exact memCanonical_advance_writeBytes h (show s.i.toNat + 3 ≤ 4096 by omega)
  | storeRegs x =>
    have hle : s.i.toNat + x.val ≤ 0xFFF := le_of_ite_lt_eq_none hfault
    have hlen := s.regBytes_length x
    exact memCanonical_advance_writeBytes h (by omega)
  | loadRegs x => exact memCanonical_of_eq (s.loadFrom_font _ _) (s.loadFrom_mem _ _) h
  | waitKey x =>
    obtain heq | ⟨b, heq⟩ := completed_waitKey_cases s x <;> rw [heq] <;> exact h
  | _ => exact h

/-- An advance or a skip from an address that can fetch stays in bounds. -/
theorem add_toNat_le_of_fetch {pc : Word} (hpc : pc.toNat ≤ 0xFFE) {w : Word} (hw : w.toNat ≤ 4) :
    (pc + w).toNat ≤ 0x10FE := by
  rw [BitVec.toNat_add]
  omega

theorem State.skipIf_pc_le (hpc : s.pc.toNat ≤ 0xFFE) (taken : Bool) : (s.skipIf taken).pc.toNat ≤ 0x10FE := by
  rw [State.skipIf_pc]
  cases taken <;> exact add_toNat_le_of_fetch hpc (by decide)

theorem addrWord_toNat_le (nnn : Addr12) : (addrWord nnn).toNat ≤ 0x10FE := by
  have hnnn := nnn.isLt
  rw [addrWord_toNat]
  omega

theorem addrWord_add_byteWord_toNat_le (nnn : Addr12) (b : Byte) :
    (addrWord nnn + byteWord b).toNat ≤ 0x10FE := by
  have hnnn := nnn.isLt
  have hb := b.isLt
  rw [addrWord_add_byteWord_toNat]
  omega

/-- The address a return goes to is that of a slot, or 0. -/
theorem completed_ret_pc_le (hstack : ∀ k : Fin 16, s.stack[k].toNat ≤ 0x1000) :
    (completed .ret s).pc.toNat ≤ 0x10FE := by
  have hlt : s.sp.val - 1 < 16 := by omega
  have hslot := hstack ⟨s.sp.val - 1, hlt⟩
  have hpc : (completed .ret s).pc = s.stack[s.sp.val - 1] := by simp [completed, Vector.getD, hlt]
  rw [hpc]
  exact Nat.le_trans hslot (by decide)

/-- `pc` stays in bounds (R12): the next address and the skip from the bound of the fetch, the jumps from the
width of their operands, the return from the bound of the slots. -/
theorem completed_pc_le {i : Instr} (hpc : s.pc.toNat ≤ 0xFFE)
    (hstack : ∀ k : Fin 16, s.stack[k].toNat ≤ 0x1000) : (completed i s).pc.toNat ≤ 0x10FE := by
  have hadvance : (s.pc + 2).toNat ≤ 0x10FE := add_toNat_le_of_fetch hpc (by decide)
  cases i with
  | ret => exact completed_ret_pc_le hstack
  | jump nnn | call nnn => exact addrWord_toNat_le nnn
  | jumpV0 nnn => exact addrWord_add_byteWord_toNat_le nnn _
  | skipEqImm _ _ | skipNeImm _ _ | skipEqReg _ _ | skipNeReg _ _ | skipKeyPressed _ | skipKeyNotPressed _ =>
    exact State.skipIf_pc_le hpc _
  | waitKey x =>
    obtain heq | ⟨b, heq⟩ := completed_waitKey_cases s x
    · rw [heq]
      omega
    · rw [heq]
      exact hadvance
  | bcd x | storeRegs x =>
    rw [completed, State.advance_pc, State.writeBytes_pc]
    exact hadvance
  | loadRegs x =>
    rw [completed, State.advance_pc, State.loadFrom_eq]
    exact hadvance
  | _ => exact hadvance

/-- The address that `call` pushes is in bounds, because the call was fetched. -/
theorem completed_call_stack_le (nnn : Addr12) (hpc : s.pc.toNat ≤ 0xFFE)
    (hstack : ∀ k : Fin 16, s.stack[k].toNat ≤ 0x1000) (k : Fin 16) :
    (completed (.call nnn) s).stack[k].toNat ≤ 0x1000 := by
  have hpush : (s.pc + 2).toNat ≤ 0x1000 := by
    rw [BitVec.toNat_add]
    exact Nat.le_trans (Nat.mod_le _ _) (Nat.add_le_add_right hpc 2)
  by_cases hnew : s.sp.val = k.val
  · rw [completed_call_slot nnn hnew]
    exact hpush
  · have hold : (completed (.call nnn) s).stack[k] = s.stack[k] := by simp [completed, hnew]
    rw [hold]
    exact hstack k

theorem completed_stack_le {i : Instr} (hpc : s.pc.toNat ≤ 0xFFE)
    (hstack : ∀ k : Fin 16, s.stack[k].toNat ≤ 0x1000) (k : Fin 16) :
    (completed i s).stack[k].toNat ≤ 0x1000 := by
  by_cases hcall : ∃ nnn, i = .call nnn
  · obtain ⟨nnn, rfl⟩ := hcall
    exact completed_call_stack_le nnn hpc hstack k
  · have hkeep : (completed i s).stack[k] = s.stack[k] := 
      completed_keepsAllBut s i (.slot k) fun hw => hcall (eq_call_of_mayWrite hw)
    rw [hkeep]
    exact hstack k

end

/-- Every step keeps the invariant. -/
theorem inv_step {s t : State} (h : Inv s) (hstep : step s = .next t) : Inv t := by
  obtain ⟨hmem, hpc, hstack⟩ := h
  obtain ⟨-, rfl⟩ | ⟨-, f, rfl⟩ | ⟨-, i, ⟨hfetch, -⟩, hfault, rfl⟩ := step_outcomes hstep
  · exact ⟨hmem, hpc, hstack⟩
  · exact ⟨hmem, hpc, hstack⟩
  · exact ⟨memCanonical_completed hmem hfault, completed_pc_le hfetch hstack,
      completed_stack_le hfetch hstack⟩

/-- Settles O25: a latched fault leaves memory, `pc` and the slots, and an instruction that was fetched keeps
each in bounds. -/
theorem everyStepKeepsTheInvariant : Obligations.EveryStepKeepsTheInvariant := fun _ _ => inv_step

/-! ### Reset and load -/

theorem inv_hostReset (s : State) : Inv s.hostReset :=
  ⟨Memory.wf_nil s.font, show (0x200 : Word).toNat ≤ 0x10FE by decide,
    fun k => by simp [State.hostReset, State.reset]⟩

/-- Settles O24: the reset state lists no byte, `pc` is 0x200 and every slot is 0. -/
theorem invariantHoldsAtReset : Obligations.InvariantHoldsAtReset := ⟨inv_hostReset State.reset, inv_hostReset⟩

/-- A load writes memory and nothing else. -/
theorem State.loadProgram_cases (s : State) (bytes : List Byte) :
    (bytes.length ≤ 3584 ∧ s.loadProgram bytes = s.writeBytes 0x200 bytes) ∨
      (3584 < bytes.length ∧ s.loadProgram bytes = s) := by
  by_cases h : bytes.length ≤ 3584
  · exact .inl ⟨h, s.loadProgram_of_le h⟩
  · have hlt : 3584 < bytes.length := Nat.lt_of_not_le h
    have hstatus : loadStatus bytes = .imageTooLarge := if_pos hlt
    exact .inr ⟨hlt, by simp only [State.loadProgram, hstatus]⟩

theorem inv_loadProgram {s : State} (h : Inv s) (bytes : List Byte) : Inv (s.loadProgram bytes) := by
  obtain ⟨hmem, hpc, hstack⟩ := h
  obtain ⟨hlen, heq⟩ | ⟨-, heq⟩ := s.loadProgram_cases bytes
  · rw [heq]
    refine ⟨State.wf_writeBytes hmem (by omega), ?_, ?_⟩
    · rw [State.writeBytes_pc]
      exact hpc
    · rw [State.writeBytes_stack]
      exact hstack
  · rw [heq]
    exact ⟨hmem, hpc, hstack⟩

/-- Settles O26: Reset establishes the invariant, a load writes within memory, `SetKey` and `ClearRedraw` touch
none of its parts, and a step keeps it. -/
theorem hostOperationsKeepTheInvariant : Obligations.HostOperationsKeepTheInvariant := by
  intro op s t h hact
  cases op with
  | step => exact inv_step h hact
  | reset =>
    cases hact
    exact inv_hostReset s
  | loadProgram bytes =>
    cases hact
    exact inv_loadProgram h bytes
  | setKey k b =>
    cases hact
    exact h
  | clearRedraw =>
    cases hact
    exact h

/-- Settles O30: the status is the length test, and a load that writes leaves the fault register. -/
theorem loadStatusesAreNotFaults : Obligations.LoadStatusesAreNotFaults := by
  refine fun s bytes => ⟨fun hlt => ⟨if_pos hlt, ?_⟩, fun hle => if_neg (Nat.not_lt.mpr hle), ?_⟩
  · obtain ⟨hle, -⟩ | ⟨-, heq⟩ := s.loadProgram_cases bytes
    · exact absurd hlt (Nat.not_lt.mpr hle)
    · exact congrArg Host.Outcome.next heq
  · refine ⟨_, rfl, ?_⟩
    obtain ⟨-, heq⟩ | ⟨-, heq⟩ := s.loadProgram_cases bytes
    · rw [heq, State.writeBytes_fault]
    · rw [heq]

/-- Settles O29: an image that fits is stored from 0x200 on. -/
theorem loadProgramCopiesTheImage : Obligations.LoadProgramCopiesTheImage := by
  refine fun s bytes hmem hlen => ⟨_, rfl, fun k hk => State.readByte_loadProgram hmem hlen hk, ?_⟩
  rw [State.loadProgram_of_le hlen]
  exact s.writeBytes_keepsAllBut 0x200 bytes

/-- After Reset an address reads as the font or 0 (decision D19). -/
theorem State.readByte_hostReset (s : State) (a : Nat) :
    s.hostReset.readByte a = Memory.resetByte s.font a := rfl

theorem Memory.resetByte_of_lt (font : Vector Byte 80) (a : Fin 80) :
    Memory.resetByte font a.val = font[a] := dif_pos a.isLt

theorem Memory.resetByte_of_le (font : Vector Byte 80) {a : Nat} (h : 80 ≤ a) :
    Memory.resetByte font a = 0 := dif_neg (Nat.not_lt.mpr h)

/-- Settles O28: each field of `State.hostReset`, and memory read through the empty list. -/
theorem resetLeavesTheStatedValues : Obligations.ResetLeavesTheStatedValues := by
  refine ⟨rfl, fun s => ⟨s.hostReset, rfl, rfl, State.reset_reg, rfl, rfl, rfl, fun k => ?_, rfl, rfl,
    Memory.resetByte_of_lt s.font, fun a ha _ => Memory.resetByte_of_le s.font ha,
    fun c _ => Framebuffer.get_blank c, fun k => ?_, rfl, rfl⟩⟩
  · simp [State.hostReset, State.reset]
  · simp [State.hostReset, State.reset, State.pressed]

/-- The host operations other than Reset leave a latched fault. -/
theorem hostAct_fault {op : HostOp} {s : State} (hop : op ≠ .reset) (hhalt : s.fault ≠ none) :
    ∃ t, hostAct op s = .next t ∧ t.fault = s.fault := by
  cases op with
  | reset => exact absurd rfl hop
  | loadProgram bytes =>
    obtain ⟨-, -, hload⟩ := loadStatusesAreNotFaults s bytes
    exact hload
  | setKey k b => exact ⟨_, rfl, rfl⟩
  | clearRedraw => exact ⟨_, rfl, rfl⟩
  | step =>
    obtain ⟨f, hf⟩ := Option.ne_none_iff_exists'.mp hhalt
    exact ⟨s, step_of_halted hf, rfl⟩

/-- Settles O15: a halted core's step is the identity, and of the host's operations only Reset writes the
fault register. -/
theorem onlyResetLeavesTheHaltedState : Obligations.OnlyResetLeavesTheHaltedState := by
  intro s hhalt
  obtain ⟨f, hf⟩ := Option.ne_none_iff_exists'.mp hhalt
  exact ⟨step_of_halted hf, fun op hop => hostAct_fault hop hhalt, s.hostReset, rfl, rfl, rfl⟩

/-! ### The canonical form -/

/-- A canonical list from `lo` on: addresses rise, and no entry is what its address reads as unlisted. -/
def Memory.CanonicalFrom (font : Vector Byte 80) (lo : Nat) (m : List Host.Cell) : Prop :=
  Memory.risingFrom lo m = true ∧ ∀ c ∈ m, c.1 < 4096 ∧ c.2 ≠ Memory.resetByte font c.1

theorem Memory.canonicalFrom_of_wf {font : Vector Byte 80} {m : List Host.Cell} (h : Memory.wf font m = true) :
    Memory.CanonicalFrom font 0 m := by
  simp only [Memory.wf, Bool.and_eq_true, List.all_eq_true, decide_eq_true_eq] at h
  exact h

theorem Memory.CanonicalFrom.head {font : Vector Byte 80} {lo a : Nat} {b : Byte} {m : List Host.Cell}
    (h : Memory.CanonicalFrom font lo ((a, b) :: m)) :
    lo ≤ a ∧ a < 4096 ∧ b ≠ Memory.resetByte font a ∧ Memory.CanonicalFrom font (a + 1) m := by
  obtain ⟨hrise, hall⟩ := h
  simp only [Memory.risingFrom, Bool.and_eq_true, decide_eq_true_eq] at hrise
  obtain ⟨ha, hb⟩ := hall (a, b) List.mem_cons_self
  exact ⟨hrise.1, ha, hb, hrise.2, fun c hc => hall c (List.mem_cons_of_mem _ hc)⟩

/-- The list is canonical from its first address on. -/
theorem Memory.CanonicalFrom.from_head {font : Vector Byte 80} {lo a : Nat} {b : Byte} {m : List Host.Cell}
    (h : Memory.CanonicalFrom font lo ((a, b) :: m)) : Memory.CanonicalFrom font a ((a, b) :: m) := by
  obtain ⟨-, -, -, hrest⟩ := h.head
  exact ⟨by simpa [Memory.risingFrom] using hrest.1, h.2⟩

/-- An address below the list reads as unlisted. -/
theorem Memory.CanonicalFrom.read_of_lt {font : Vector Byte 80} {lo a : Nat} {m : List Host.Cell}
    (h : Memory.CanonicalFrom font lo m) (ha : a < lo) : Memory.read font m a = Memory.resetByte font a := by
  simp only [Memory.read, Memory.find_eq_none_of_rising h.1 ha, Option.getD_none]

@[simp] theorem Memory.read_cons_self (font : Vector Byte 80) (a : Nat) (b : Byte) (m : List Host.Cell) :
    Memory.read font ((a, b) :: m) a = b := by simp [Memory.read, Memory.find]

theorem Memory.read_cons_ne {a a' : Nat} (h : a' ≠ a) (font : Vector Byte 80) (b : Byte) (m : List Host.Cell) :
    Memory.read font ((a, b) :: m) a' = Memory.read font m a' := by simp [Memory.read, Memory.find, h]

/-- The first entry of a canonical list is seen by a read, so a canonical list that reads the same from its
address on does not begin later. -/
theorem Memory.CanonicalFrom.not_lt_head {font : Vector Byte 80} {lo a lo' : Nat} {b : Byte}
    {m m' : List Host.Cell} (h : Memory.CanonicalFrom font lo ((a, b) :: m))
    (h' : Memory.CanonicalFrom font lo' m')
    (hread : Memory.read font ((a, b) :: m) a = Memory.read font m' a) : ¬ a < lo' := by
  intro hlt
  obtain ⟨-, -, hb, -⟩ := h.head
  rw [Memory.read_cons_self, h'.read_of_lt hlt] at hread
  exact hb hread

/-- Canonical lists that read alike are equal: their first entries must agree, and then their rests do. -/
theorem Memory.CanonicalFrom.eq_of_read_eq {font : Vector Byte 80} {lo : Nat} {m m' : List Host.Cell}
    (h : Memory.CanonicalFrom font lo m) (h' : Memory.CanonicalFrom font lo m')
    (hread : ∀ a, a < 4096 → Memory.read font m a = Memory.read font m' a) : m = m' := by
  induction m generalizing lo m' with
  | nil =>
    cases m' with
    | nil => rfl
    | cons c' rest' =>
      obtain ⟨a', b'⟩ := c'
      obtain ⟨-, ha', hb', -⟩ := h'.head
      have hb := hread a' ha'
      rw [Memory.read_cons_self] at hb
      exact absurd hb.symm hb'
  | cons c rest ih =>
    obtain ⟨a, b⟩ := c
    obtain ⟨-, ha, hb, hrest⟩ := h.head
    cases m' with
    | nil =>
      have hb' := hread a ha
      rw [Memory.read_cons_self] at hb'
      exact absurd hb' hb
    | cons c' rest' =>
      obtain ⟨a', b'⟩ := c'
      obtain ⟨-, ha', -, hrest'⟩ := h'.head
      have hnot : ¬ a < a' := h.not_lt_head h'.from_head (hread a ha)
      have hnot' : ¬ a' < a := h'.not_lt_head h.from_head (hread a' ha').symm
      obtain rfl : a = a' := by omega
      have hbb : b = b' := by simpa using hread a ha
      have htail : rest = rest' := by
        refine ih hrest hrest' fun k hk => ?_
        by_cases hka : k = a
        · subst hka
          rw [hrest.read_of_lt (Nat.lt_succ_self k), hrest'.read_of_lt (Nat.lt_succ_self k)]
        · have hkread := hread k hk
          rwa [Memory.read_cons_ne hka, Memory.read_cons_ne hka] at hkread
      rw [hbb, htail]

/-- Settles O27: a canonical list is determined by its reads. -/
theorem canonicalMemoriesThatReadAlikeAreEqual : Obligations.CanonicalMemoriesThatReadAlikeAreEqual := by
  intro s t hs ht hfont hread
  have ht' : Memory.wf s.font t.mem = true := hfont ▸ ht
  refine (Memory.canonicalFrom_of_wf hs).eq_of_read_eq (Memory.canonicalFrom_of_wf ht') fun a ha => ?_
  have hbyte := hread a ha
  rwa [State.readByte, State.readByte, ← hfont] at hbyte

end Sys2Proof.Machine
end

section
/-! Decoding and encoding (30_encoding.md R64, R66 to R68): each undoes the other, and decoding is the opcode
map. -/

namespace Sys2Proof

/-! ### Decode after encode -/

/-- Decoding the word of an instruction: the family picks the arm, the fields give the operands back. -/
theorem decodeWord_encode {i : Instr} (h : i.wellFormed = true) : decodeWord (encode i) = some i := by
  cases i with
  | clearScreen => rfl
  | ret => rfl
  | draw x y n =>
    have hn : n < 16 := by simpa [Instr.wellFormed] using h
    simp [encode, decodeWord, Nat.mod_eq_of_lt hn]
  | _ => simp [encode, decodeWord, decodeFamily8, decodeFamilyE, decodeFamilyF]

/-- Settles O1: the lemmas on the fields of a word built from its fields, arm by arm. -/
theorem decodeAfterEncodeIsTheInstruction : Obligations.DecodeAfterEncodeIsTheInstruction :=
  fun _ => decodeWord_encode

/-! ### A word is made of its fields -/

section

variable {op : Word} {f : BitVec 4}

theorem nnn_fields (hf : fieldFam op = f.toNat) : f ++ fieldNNN op = op := by
  apply BitVec.eq_of_toNat_eq
  rw [toNat_nnn, fieldNNN_toNat, ← hf, fieldFam_eq]
  omega

theorem xkk_fields (hf : fieldFam op = f.toNat) : f ++ regBits (fieldX op) ++ fieldKK op = op := by
  apply BitVec.eq_of_toNat_eq
  rw [toNat_xkk, fieldX_val, fieldKK_toNat, ← hf, fieldFam_eq]
  omega

theorem xss_fields (hf : fieldFam op = f.toNat) {kk : Byte} (hkk : (fieldKK op).toNat = kk.toNat) :
    f ++ regBits (fieldX op) ++ kk = op := by
  rw [← BitVec.eq_of_toNat_eq hkk, xkk_fields hf]

theorem xyn_fields (hf : fieldFam op = f.toNat) {n : BitVec 4} (hn : fieldN op = n.toNat) :
    f ++ regBits (fieldX op) ++ regBits (fieldY op) ++ n = op := by
  apply BitVec.eq_of_toNat_eq
  rw [toNat_xyn, fieldX_val, fieldY_val, ← hf, ← hn, fieldFam_eq, fieldN_eq]
  omega

/-- The field `y` cleared, as the encoder leaves it in `shr` and `shl`. -/
theorem xyn_fields_clear_y (hf : fieldFam op = f.toNat) {n : BitVec 4} (hn : fieldN op = n.toNat) :
    f ++ regBits (fieldX op) ++ regBits 0 ++ n = op &&& 0xFF0F := by
  have hmask : (0xFF0F : Word) = 0xF#4 ++ 0xF#4 ++ 0x0#4 ++ 0xF#4 := rfl
  conv_rhs => rw [← xyn_fields hf hn, hmask, BitVec.and_append, BitVec.and_append, BitVec.and_append]
  simp only [nibble_and_ones, BitVec.and_zero]
  rfl

end

/-! ### Encode after decode -/

/-- The word and its instruction agree (R64): encoding gives the word, or for `shr` and `shl` the word with
the ignored field `y` cleared. -/
def EncodesBack (op : Word) (i : Instr) : Prop :=
  i.wellFormed = true ∧ encode i = if (∃ x, i = .shr x) ∨ (∃ x, i = .shl x) then op &&& 0xFF0F else op

theorem encodesBack_of_encode_eq {op : Word} {i : Instr} (hwf : i.wellFormed = true)
    (hshift : ¬ ((∃ x, i = .shr x) ∨ ∃ x, i = .shl x)) (h : encode i = op) : EncodesBack op i :=
  ⟨hwf, by rw [if_neg hshift, h]⟩

theorem encodesBack_of_decodeFamily0 {op : Word} {i : Instr} (h : decodeFamily0 op = some i) :
    EncodesBack op i := by
  unfold decodeFamily0 at h
  split at h
  next hop => cases h; exact encodesBack_of_encode_eq rfl (by simp) hop.symm
  next =>
    split at h
    next hop => cases h; exact encodesBack_of_encode_eq rfl (by simp) hop.symm
    next => cases h

theorem encodesBack_of_decodeFamily8 {op : Word} {i : Instr} (hfam : fieldFam op = 8)
    (h : decodeFamily8 op = some i) : EncodesBack op i := by
  have hf : fieldFam op = (0x8#4).toNat := hfam
  unfold decodeFamily8 at h
  split at h <;> cases h
  -- the arms of `shr` and `shl`
  case h_7 hn => exact ⟨rfl, by rw [if_pos (.inl ⟨_, rfl⟩)]; exact xyn_fields_clear_y hf hn⟩
  case h_9 hn => exact ⟨rfl, by rw [if_pos (.inr ⟨_, rfl⟩)]; exact xyn_fields_clear_y hf hn⟩
  all_goals
    next hn => exact encodesBack_of_encode_eq rfl (by simp) (xyn_fields hf hn)

theorem encodesBack_of_decodeFamilyE {op : Word} {i : Instr} (hfam : fieldFam op = 0xE)
    (h : decodeFamilyE op = some i) : EncodesBack op i := by
  have hf : fieldFam op = (0xE#4).toNat := hfam
  unfold decodeFamilyE at h
  split at h <;> cases h
  all_goals
    next hkk => exact encodesBack_of_encode_eq rfl (by simp) (xss_fields hf hkk)

theorem encodesBack_of_decodeFamilyF {op : Word} {i : Instr} (hfam : fieldFam op = 0xF)
    (h : decodeFamilyF op = some i) : EncodesBack op i := by
  have hf : fieldFam op = (0xF#4).toNat := hfam
  unfold decodeFamilyF at h
  split at h <;> cases h
  all_goals
    next hkk => exact encodesBack_of_encode_eq rfl (by simp) (xss_fields hf hkk)

/-- Families 5 and 9: the low nibble is 0. -/
theorem eq_of_ite_eq_some {n : Nat} {i j : Instr} (h : (if n = 0 then some j else none) = some i) :
    n = 0 ∧ j = i := by
  split at h
  next hn => exact ⟨hn, Option.some.inj h⟩
  next => cases h

/-- A decoded word is its instruction's word, by the family of the word. -/
theorem encodesBack_of_decodeWord {op : Word} {i : Instr} (h : decodeWord op = some i) : EncodesBack op i := by
  unfold decodeWord at h
  -- arm `h_k` is family `k - 1`
  split at h
  case h_1 => exact encodesBack_of_decodeFamily0 h
  case h_9 hfam => exact encodesBack_of_decodeFamily8 hfam h
  case h_15 hfam => exact encodesBack_of_decodeFamilyE hfam h
  case h_16 hfam => exact encodesBack_of_decodeFamilyF hfam h
  case h_17 => cases h
  case h_6 hfam | h_10 hfam =>
    obtain ⟨hn, rfl⟩ := eq_of_ite_eq_some h
    exact encodesBack_of_encode_eq rfl (by simp) (xyn_fields hfam hn)
  case h_14 hfam =>
    cases h
    have hlt : fieldN op < 16 := by rw [fieldN_eq]; omega
    exact encodesBack_of_encode_eq (decide_eq_true hlt) (by simp)
      (xyn_fields hfam (Nat.mod_eq_of_lt hlt).symm)
  case h_2 hfam | h_3 hfam | h_11 hfam | h_12 hfam =>
    cases h
    exact encodesBack_of_encode_eq rfl (by simp) (nnn_fields hfam)
  case h_4 hfam | h_5 hfam | h_7 hfam | h_8 hfam | h_13 hfam =>
    cases h
    exact encodesBack_of_encode_eq rfl (by simp) (xkk_fields hfam)

/-- Settles O2: in every family the word is made of the fields that decoding reads. -/
theorem encodeAfterDecodeIsTheWord : Obligations.EncodeAfterDecodeIsTheWord :=
  fun _ _ => encodesBack_of_decodeWord

/-! ### The opcode map (R66, R67) -/

/-- Every instruction's word matches the instruction's row. -/
theorem encode_and_mask (i : Instr) : encode i &&& (rowOf i).mask = (rowOf i).bits := by
  cases i with
  | clearScreen | ret => rfl
  | jump nnn | call nnn | setI nnn | jumpV0 nnn => exact nnn_and_mask _ _
  | skipEqImm x kk | skipNeImm x kk | setImm x kk | addImm x kk | random x kk => exact xkk_and_family _ _ _
  | draw x y n => exact xyn_and_family _ _ _ _
  | skipEqReg x y | skipNeReg x y | setReg x y | orReg x y | andReg x y | xorReg x y | addReg x y | sub x y
  | subn x y => exact xyn_and_mask _ _ _ _
  | shr x | shl x => exact xyn_and_mask _ _ _ _
  | skipKeyPressed x | skipKeyNotPressed x | getDelay x | waitKey x | setDelay x | setSound x | addI x
  | fontAddr x | bcd x | storeRegs x | loadRegs x => exact xkk_and_mask _ _ _

/-- The mask of `shr` and `shl` does not look at the field `y`. -/
theorem and_clear_y_and_mask (op : Word) : op &&& 0xFF0F &&& 0xF00F = op &&& 0xF00F := by
  rw [BitVec.and_assoc]
  rfl

/-- A decoded word matches its instruction's row. -/
theorem and_mask_of_decodeWord {op : Word} {i : Instr} (h : decodeWord op = some i) :
    op &&& (rowOf i).mask = (rowOf i).bits := by
  obtain ⟨-, henc⟩ := encodesBack_of_decodeWord h
  have hrow := encode_and_mask i
  rw [henc] at hrow
  split at hrow
  next hshift =>
    obtain ⟨x, rfl⟩ | ⟨x, rfl⟩ := hshift <;> exact (and_clear_y_and_mask op).symm.trans hrow
  next => exact hrow

/-- The family is under every mask that keeps the top nibble. -/
theorem fieldFam_of_and_eq {op m b : Word} (h : op &&& m = b) (hm : m.extractLsb' 12 4 = 15#4) :
    fieldFam op = fieldFam b := by
  rw [← h, fieldFam, fieldFam, BitVec.extractLsb'_and, hm, nibble_and_ones]

theorem fieldN_of_and_eq {op m b : Word} (h : op &&& m = b) (hm : m.extractLsb' 0 4 = 15#4) :
    fieldN op = fieldN b := by
  rw [← h, fieldN, fieldN, BitVec.extractLsb'_and, hm, nibble_and_ones]

theorem fieldKK_of_and_eq {op m b : Word} (h : op &&& m = b) (hm : m.extractLsb' 0 8 = 255#8) :
    fieldKK op = fieldKK b := by
  rw [← h, fieldKK, fieldKK, BitVec.extractLsb'_and, hm, byte_and_ones]

/-- A word that matches the row of `i` decodes to an instruction of that row: the bits the row fixes are
those that decoding compares. -/
theorem decodeWord_of_and_mask {op : Word} {i : Instr} (h : op &&& (rowOf i).mask = (rowOf i).bits) :
    ∃ j, decodeWord op = some j ∧ rowOf j = rowOf i := by
  cases i with
  | clearScreen | ret =>
    have hop : op &&& BitVec.allOnes 16 = _ := h
    rw [BitVec.and_allOnes] at hop
    exact ⟨_, congrArg decodeWord hop, rfl⟩
  | jump _ | call _ | setI _ | jumpV0 _ | skipEqImm _ _ | skipNeImm _ _ | setImm _ _ | addImm _ _ | random _ _
  | draw _ _ _ =>
    simp only [rowOf] at h
    unfold decodeWord
    rw [fieldFam_of_and_eq h rfl]
    exact ⟨_, rfl, rfl⟩
  | skipEqReg _ _ | skipNeReg _ _ | setReg _ _ | orReg _ _ | andReg _ _ | xorReg _ _ | addReg _ _ | sub _ _
  | subn _ _ | shr _ | shl _ =>
    simp only [rowOf] at h
    unfold decodeWord decodeFamily8
    rw [fieldFam_of_and_eq h rfl, fieldN_of_and_eq h rfl]
    exact ⟨_, rfl, rfl⟩
  | skipKeyPressed _ | skipKeyNotPressed _ | getDelay _ | waitKey _ | setDelay _ | setSound _ | addI _
  | fontAddr _ | bcd _ | storeRegs _ | loadRegs _ =>
    simp only [rowOf] at h
    unfold decodeWord decodeFamilyE decodeFamilyF
    rw [fieldFam_of_and_eq h rfl, fieldKK_of_and_eq h rfl]
    exact ⟨_, rfl, rfl⟩

theorem rowOf_mem_opcodeMap (i : Instr) : rowOf i ∈ opcodeMap := by
  cases i <;> simp only [rowOf] <;> decide

/-- One instruction of every row of the map, in the map's order. -/
def rowInstrs : List Instr :=
  [.clearScreen, .ret, .jump 0, .call 0, .skipEqImm 0 0, .skipNeImm 0 0, .skipEqReg 0 0, .skipNeReg 0 0,
   .setImm 0 0, .addImm 0 0, .setReg 0 0, .orReg 0 0, .andReg 0 0, .xorReg 0 0, .addReg 0 0, .sub 0 0, .shr 0,
   .subn 0 0, .shl 0, .setI 0, .jumpV0 0, .random 0 0, .draw 0 0 0, .skipKeyPressed 0, .skipKeyNotPressed 0,
   .getDelay 0, .waitKey 0, .setDelay 0, .setSound 0, .addI 0, .fontAddr 0, .bcd 0, .storeRegs 0, .loadRegs 0]

theorem opcodeMap_eq_map : opcodeMap = rowInstrs.map rowOf := rfl

/-- Every row of the map is the row of an instruction. -/
theorem exists_rowOf_of_mem_opcodeMap {r : OpRow} (h : r ∈ opcodeMap) : ∃ i, rowOf i = r := by
  rw [opcodeMap_eq_map] at h
  obtain ⟨i, -, hi⟩ := List.mem_map.mp h
  exact ⟨i, hi⟩

/-- Settles O3: a word that matches an instruction's row decodes to an instruction of that row, and decoding
has one result. -/
theorem opcodeMapDecidesEveryWord : Obligations.OpcodeMapDecidesEveryWord := by
  refine ⟨fun op => ⟨?_, ?_⟩, fun op i => and_mask_of_decodeWord, rowOf_mem_opcodeMap, ?_⟩
  · rintro ⟨i, hi⟩
    exact ⟨rowOf i, rowOf_mem_opcodeMap i, and_mask_of_decodeWord hi⟩
  · rintro ⟨r, hr, hmatch⟩
    obtain ⟨i, rfl⟩ := exists_rowOf_of_mem_opcodeMap hr
    obtain ⟨j, hj, -⟩ := decodeWord_of_and_mask hmatch
    exact ⟨j, hj⟩
  · intro op r hr q hq hmatch hmatch'
    obtain ⟨i, rfl⟩ := exists_rowOf_of_mem_opcodeMap hr
    obtain ⟨i', rfl⟩ := exists_rowOf_of_mem_opcodeMap hq
    obtain ⟨j, hj, hrow⟩ := decodeWord_of_and_mask hmatch
    obtain ⟨j', hj', hrow'⟩ := decodeWord_of_and_mask hmatch'
    obtain rfl : j = j' := Option.some.inj (hj.symm.trans hj')
    exact hrow.symm.trans hrow'

/-! ### The unknown words (R68) -/

section

variable {op : Word}

theorem decodeFamily0_eq_none : decodeFamily0 op = none ↔ op.toNat ≠ 0x00E0 ∧ op.toNat ≠ 0x00EE := by
  have h0 : op = 0x00E0 ↔ op.toNat = 0x00E0 := BitVec.toNat_inj.symm
  have h1 : op = 0x00EE ↔ op.toNat = 0x00EE := BitVec.toNat_inj.symm
  simp only [decodeFamily0, h0, h1]
  split
  next h => simp [h]
  next h => simp [h]

theorem decodeFamily8_eq_none :
    decodeFamily8 op = none ↔ op.toNat % 16 ∈ [8, 9, 0xA, 0xB, 0xC, 0xD, 0xF] := by
  have hlt : op.toNat % 16 < 16 := Nat.mod_lt _ (by decide)
  rw [decodeFamily8, fieldN_eq]
  generalize op.toNat % 16 = n at hlt ⊢
  interval_cases n <;> simp

theorem decodeFamilyE_eq_none : decodeFamilyE op = none ↔ op.toNat % 256 ∉ [0x9E, 0xA1] := by
  rw [decodeFamilyE, fieldKK_toNat]
  split <;> simp_all

theorem decodeFamilyF_eq_none :
    decodeFamilyF op = none ↔ op.toNat % 256 ∉ [0x07, 0x0A, 0x15, 0x18, 0x1E, 0x29, 0x33, 0x55, 0x65] := by
  rw [decodeFamilyF, fieldKK_toNat]
  split <;> simp_all

end

/-- Settles O4: family by family, which words the family's decoder refuses. -/
theorem unknownWordsAreTheSixFamilies : Obligations.UnknownWordsAreTheSixFamilies := by
  intro op
  have hlt : op.toNat / 4096 < 16 := by omega
  rw [decodeWord, fieldFam_eq, fieldN_eq]
  -- arm `h_k` is family `k - 1`
  split
  case h_1 hfam => simp only [hfam, decodeFamily0_eq_none]; simp
  case h_9 hfam => simp only [hfam, decodeFamily8_eq_none]; simp
  case h_15 hfam => simp only [hfam, decodeFamilyE_eq_none]; simp
  case h_16 hfam => simp only [hfam, decodeFamilyF_eq_none]; simp
  case h_17 =>
    exfalso
    generalize op.toNat / 4096 = fam at *
    interval_cases fam <;> contradiction
  all_goals
    next hfam => simp [hfam]

/-- Settles O5: each word through the decoder. -/
theorem sampleWordsDecode : Obligations.SampleWordsDecode := by
  refine ⟨?_, ?_, ?_, ?_, ?_, ?_, ?_, ?_⟩ <;> rfl

end Sys2Proof

namespace Sys2Proof.Machine

open Sys2Proof

/-- Settles O8: the step is the instruction with what follows it. -/
theorem stepRunsTheDecodedInstruction : Obligations.StepRunsTheDecodedInstruction := by
  intro s u i hrun hi hexec
  obtain ⟨op, hf, hd⟩ := fetch_of_fetchesInstr hi
  obtain ⟨hwf, -⟩ := encodesBack_of_decodeWord hd
  refine ⟨hwf, afterInstr u, step_of_exec hrun hf hd hexec, timersDecayed_afterInstr, fun hne => ?_⟩
  obtain ⟨f, hfault⟩ := Option.ne_none_iff_exists'.mp hne
  exact afterInstr_of_fault hfault

/-- A table word that decodes is an opcode that decodes. -/
theorem decodeWord_of_decodeTableWord {w : Nat} {i : Instr} (h : decodeTableWord 16 w = some i) :
    decodeWord (tableWord 16 w) = some i := by
  unfold decodeTableWord at h
  split at h
  next j rest hdec =>
    cases h
    obtain ⟨hi, lo, hbytes, hword⟩ := decode_eq_ok_iff.mp hdec
    cases hbytes
    rwa [wordOfBytes_split] at hword
  next => cases h

/-- Settles O10: the placed word is what the fetch reads, and placing it is a store of two bytes. -/
theorem placedWordIsFetched : Obligations.PlacedWordIsFetched := by
  intro s w i hw hpc h
  have hfetch : fetch (s.withFetchWord 16 w) = .ok (tableWord 16 w) := fetch_placeOpcode hw hpc _
  refine ⟨fetchesInstr_of_fetch hfetch (decodeWord_of_decodeTableWord h), ?_⟩
  have hplace : s.withFetchWord 16 w =
      s.writeBytes s.pc.toNat [highByte (tableWord 16 w), lowByte (tableWord 16 w)] := if_neg (by omega)
  rw [hplace]
  exact s.writeBytes_keepsAllBut s.pc.toNat [highByte (tableWord 16 w), lowByte (tableWord 16 w)]

end Sys2Proof.Machine
end
